-- ==== Sys2Proof/Word.lean ====
section
/-! DEFINITION. The word types of SRS-CORE and the two keys every table and every operation is selected by:
the bus width and the direction (spec/00_scope.md R9, R13, R14). -/

namespace Sys2Proof

/-- A byte of a buffer or an 8-bit register (R13, R50). -/
abbrev Byte := BitVec 8

/-- A 32-bit register or address (R13, R52). -/
abbrev Word := BitVec 32

/-- The bus width `w`: "number of data lines read per memory cycle (8 or 16)" (R14). -/
inductive Width where
  | w8
  | w16
deriving DecidableEq, Repr, Inhabited

/-- The number of data bits of a width (R10). -/
abbrev Width.bits : Width → Nat
  | .w8 => 8
  | .w16 => 16

/-- The number of bytes one access of the transform moves at a width (R150: `n <- 1 if w = 8 else 2`). -/
abbrev Width.bytes : Width → Nat
  | .w8 => 1
  | .w16 => 2

/-- The direction `d`: D descrambles, S scrambles (R9, R14). -/
inductive Dir where
  | D
  | S
deriving DecidableEq, Repr, Inhabited

/-- `inv(d)`, the other direction (R13). -/
abbrev Dir.inv : Dir → Dir
  | .D => .S
  | .S => .D

end Sys2Proof
end

