-- ==== Sys2Proof/Config.lean ====
section
/-! DEFINITION. What an implementation fixes (spec/00_scope.md R8 to R12) and the free values.

A table is held in pair form (R70), a table set carries the proof of `WF(TAB)` (spec/10_state.md R36), so an
ill-formed table set is no configuration and cannot be built (R77, 93_implementation_defined.md U8). -/

namespace Sys2Proof

/-- A permutation table in pair form `(S, pi)` (R70): `pi` lists the destination bit of source bit 0, 1, ..,
and the span `S` is the length of the list. -/
structure PairTable where
  pi : List Nat
deriving DecidableEq, Repr, Inhabited

/-- The span `S` of a table (R70). -/
def PairTable.span (t : PairTable) : Nat := t.pi.length

/-- `pi` is a bijection of `[0, S)` onto itself: every destination lies below the span, none occurs twice (R35). -/
def PairTable.bijective (t : PairTable) : Bool :=
  t.pi.all (fun p => decide (p < t.span)) && decide t.pi.Nodup

/-- `t` keeps source bit `k` at its own position (R33). -/
def PairTable.fixes (t : PairTable) (k : Nat) : Bool := t.pi[k]? == some k

/-- The map of `u` undoes the map of `t`, entry by entry, and the spans agree (R34). -/
def PairTable.undoneBy (t u : PairTable) : Bool :=
  t.span == u.span && (List.range t.span).all (fun k => (t.pi[k]?.bind (fun p => u.pi[p]?)) == some k)

/-- The eight tables `TAB.D[w][d]` and `TAB.A[w][d]` (R9, R30). -/
structure TableSet where
  d8D : PairTable
  d8S : PairTable
  d16D : PairTable
  d16S : PairTable
  a8D : PairTable
  a8S : PairTable
  a16D : PairTable
  a16S : PairTable
deriving DecidableEq, Repr

/-- `TAB.D[w][d]` (R30). -/
def TableSet.data (t : TableSet) : Width → Dir → PairTable
  | .w8, .D => t.d8D
  | .w8, .S => t.d8S
  | .w16, .D => t.d16D
  | .w16, .S => t.d16S

/-- `TAB.A[w][d]` (R30). -/
def TableSet.addr (t : TableSet) : Width → Dir → PairTable
  | .w8, .D => t.a8D
  | .w8, .S => t.a8S
  | .w16, .D => t.a16D
  | .w16, .S => t.a16S

/-- The span of the address tables: 19 at width 8, 18 at width 16 (R10, R32, R33). -/
abbrev addrSpan : Width → Nat
  | .w8 => 19
  | .w16 => 18

/-- What R36 asks of the data table and the address table of one width and direction. -/
def TableSet.wfKey (t : TableSet) (w : Width) (d : Dir) : Bool :=
  decide ((t.data w d).span ≤ w.bits) && (t.data w d).bijective
    && (t.addr w d).span == addrSpan w && (t.addr w d).bijective
    && (t.data w d).undoneBy (t.data w d.inv) && (t.addr w d).undoneBy (t.addr w d.inv)
    && (match w with
        | .w8 => !(t.addr w d).fixes 0
        | .w16 => (t.addr w d).fixes 0 && (t.addr w d).fixes 2 && (t.addr w d).fixes 3 && (t.addr w d).fixes 14)

/-- `WF(TAB)`: spans, bijections, the fixed points of the width-16 address tables, `pi(0) != 0` of the width-8
ones, and the inverse invariant for all four pairs (R36). -/
def TableSet.wf (t : TableSet) : Bool :=
  t.wfKey .w8 .D && t.wfKey .w8 .S && t.wfKey .w16 .D && t.wfKey .w16 .S

/-- A well-formed table set, needed only to know that one exists (the type `Config` is inhabited). Nothing of the
model reads it. -/
def TableSet.someWf : TableSet :=
  let a8 : PairTable := { pi := [1, 0, 2, 3, 4, 5, 6, 7, 8, 9, 10, 11, 12, 13, 14, 15, 16, 17, 18] }
  let a16 : PairTable := { pi := List.range 18 }
  { d8D := { pi := [] }, d8S := { pi := [] }, d16D := { pi := [] }, d16S := { pi := [] },
    a8D := a8, a8S := a8, a16D := a16, a16S := a16 }

/-- The parameter `WORD_ORDER` (R11). -/
inductive WordOrder where
  | little
  | big
deriving DecidableEq, Repr, Inhabited

/-- One configuration of the hardware: `TAB` under `WF(TAB)`, `WORD_ORDER` and `CAP`, `0 <= CAP <= 2^32 - 1` (R8
to R12). State carries it as a field that no step changes (DESIGN CHOICE, assumption 1). The field defaults only witness that
the type is inhabited. -/
structure Config where
  tab : TableSet := TableSet.someWf
  tabWf : tab.wf = true := by decide
  wordOrder : WordOrder := .little
  cap : Fin 4294967296 := 0
deriving DecidableEq, Repr, Inhabited

/-- The configuration of the machine that State.reset describes: the spec gives no value of any of the three
parameters, so nothing is known of it (DESIGN CHOICE, assumption 1). -/
opaque Config.installed : Config

/-- FREE VALUE: the byte a host read of `OB`, or of an 8-bit register that the command in flight writes, returns while
BUSY (R200, R61 b; DESIGN CHOICE, assumption 4). Draw `n` is the value for the `n`-th draw. -/
opaque Config.freeByte : Nat → Byte

/-- FREE VALUE: the word a host read of `RES` returns while a command that writes it is in flight (R61 b;
DESIGN CHOICE, assumption 4). -/
opaque Config.freeWord : Nat → Word

end Sys2Proof
end

