-- ==== Sys2Proof/Syntax.lean ====
section
/-! DEFINITION. The commands of SRS-CORE: one constructor per row of the opcode map (spec/30_encoding.md R89). No
command has an operand field: operands come from registers and buffers (R80, R85), so no constructor has an argument. -/

namespace Sys2Proof

/-- A command. The name is `<operation><width><direction>`; DETECT and RUN have no width (R82). -/
inductive Instr where
  /-- PDATA.8.D, R100 -/
  | pdata8D
  /-- PDATA.16.D, R100 -/
  | pdata16D
  /-- PDATA.8.S, R100 -/
  | pdata8S
  /-- PDATA.16.S, R100 -/
  | pdata16S
  /-- PADDR.8.D, R110 -/
  | paddr8D
  /-- PADDR.16.D, R110 -/
  | paddr16D
  /-- PADDR.8.S, R110 -/
  | paddr8S
  /-- PADDR.16.S, R110 -/
  | paddr16S
  /-- DETECT.D, R130 -/
  | detectD
  /-- DETECT.S, R130 -/
  | detectS
  /-- XFORM.8.D, R150 -/
  | xform8D
  /-- XFORM.16.D, R150 -/
  | xform16D
  /-- XFORM.8.S, R150 -/
  | xform8S
  /-- XFORM.16.S, R150 -/
  | xform16S
  /-- RUN.D, R160 -/
  | runD
  /-- RUN.S, R160 -/
  | runS
deriving DecidableEq, Repr

end Sys2Proof
end

