-- ==== Sys2Proof/WellFormed.lean ====
section
/-! DEFINITION. The static checks: which field values of a command word spell a command (spec/30_encoding.md R81 to R84),
and when a mask-form array is a table (R72, R77). The check of a table set, `TableSet.wf` (R36), stands in Config.lean,
because a configuration carries its proof. -/

namespace Sys2Proof

/-- The fields of a command word whose bits 7:6 are zero (R80). -/
structure CmdFields where
  op : BitVec 4
  w : Bool
  d : Bool
deriving DecidableEq, Repr

/-- The operations of R81. -/
def CmdFields.opDefined (f : CmdFields) : Bool := decide (1 ≤ f.op.toNat ∧ f.op.toNat ≤ 5)

/-- DETECT and RUN take no width: `W` must be 0 (R82). -/
def CmdFields.widthAllowed (f : CmdFields) : Bool := !(f.w && (f.op == 3#4 || f.op == 5#4))

/-- The field values that encode an operation (R84). -/
def CmdFields.wellFormed (f : CmdFields) : Bool := f.opDefined && f.widthAllowed

/-- The field values of each command, from the columns OP, W, D of R89. -/
def Instr.fields : Instr → CmdFields
  | .pdata8D => { op := 1#4, w := false, d := false }
  | .pdata16D => { op := 1#4, w := true, d := false }
  | .pdata8S => { op := 1#4, w := false, d := true }
  | .pdata16S => { op := 1#4, w := true, d := true }
  | .paddr8D => { op := 2#4, w := false, d := false }
  | .paddr16D => { op := 2#4, w := true, d := false }
  | .paddr8S => { op := 2#4, w := false, d := true }
  | .paddr16S => { op := 2#4, w := true, d := true }
  | .detectD => { op := 3#4, w := false, d := false }
  | .detectS => { op := 3#4, w := false, d := true }
  | .xform8D => { op := 4#4, w := false, d := false }
  | .xform16D => { op := 4#4, w := true, d := false }
  | .xform8S => { op := 4#4, w := false, d := true }
  | .xform16S => { op := 4#4, w := true, d := true }
  | .runD => { op := 5#4, w := false, d := false }
  | .runS => { op := 5#4, w := false, d := true }

/-- A command is well formed when its field values encode an operation. Every constructor is. -/
def Instr.wellFormed (i : Instr) : Bool := i.fields.wellFormed

/-- `m` has exactly one bit set (R72). -/
def oneBit (m : Word) : Bool := (List.range 32).any (fun k => m == BitVec.twoPow 32 k)

/-- The non-zero entries of a mask-form array before its first zero entry: the entries the scan of R73 reads. -/
def maskPrefix (T : List Word) : List Word := T.takeWhile (fun m => m != 0#32)

/-- R72, first clause: the non-zero entries are a prefix of the array. -/
def maskIsPrefix (T : List Word) : Bool := (T.drop (maskPrefix T).length).all (fun m => m == 0#32)

/-- R72, second clause: every non-zero entry has exactly one bit set. -/
def maskSingleBits (T : List Word) : Bool := (maskPrefix T).all oneBit

/-- R72, third clause, no collision: no two entries have the same set bit. -/
def maskNoCollision (T : List Word) : Bool := decide (maskPrefix T).Nodup

/-- R72, third clause, no gap: no entry has a set bit at or above the span (R77). -/
def maskInSpan (T : List Word) : Bool :=
  (maskPrefix T).all (fun m => decide (m.toNat < 2 ^ (maskPrefix T).length))

/-- A mask-form array is well formed (R72). -/
def maskWellFormed (T : List Word) : Bool :=
  maskIsPrefix T && maskSingleBits T && maskNoCollision T && maskInSpan T

end Sys2Proof
end

