-- ==== Sys2Proof/Decode.lean ====
section
/-! DEFINITION. The decoder of the command byte, written from its fields (spec/30_encoding.md R80 to R84), total on every
byte and refusing by name; after it the encoder, written from the opcode map (R89); then the mnemonics (R86, R87).
Decoder and encoder come from different rules, so that their agreement says something. -/

namespace Sys2Proof

/-- Why a command byte encodes no operation (R84). The engine answers each with IllegalCommand (R172). -/
inductive DecodeError where
  /-- bit 7 or bit 6 is set -/
  | reservedHighBits
  /-- `OP` is 0 or 6 to 15 -/
  | reservedOperation
  /-- `OP` is 3 or 5 and `W` is 1 -/
  | reservedWidth
deriving DecidableEq, Repr

/-- `OP`, bits 3:0 of the command byte (R80). -/
def opField (b : Byte) : BitVec 4 := b.extractLsb' 0 4

/-- `W`, bit 4 (R80). -/
def wField (b : Byte) : Bool := b.getLsbD 4

/-- `D`, bit 5 (R80). -/
def dField (b : Byte) : Bool := b.getLsbD 5

/-- `W` = 0 selects width 8, `W` = 1 width 16 (R82). -/
def widthOfBit : Bool → Width
  | false => .w8
  | true => .w16

/-- `D` = 0 selects direction D, `D` = 1 direction S (R83). -/
def dirOfBit : Bool → Dir
  | false => .D
  | true => .S

/-- PDATA of a width and a direction (R81, R86). -/
def pdataOf : Width → Dir → Instr
  | .w8, .D => .pdata8D
  | .w16, .D => .pdata16D
  | .w8, .S => .pdata8S
  | .w16, .S => .pdata16S

/-- PADDR of a width and a direction (R81, R86). -/
def paddrOf : Width → Dir → Instr
  | .w8, .D => .paddr8D
  | .w16, .D => .paddr16D
  | .w8, .S => .paddr8S
  | .w16, .S => .paddr16S

/-- XFORM of a width and a direction (R81, R86). -/
def xformOf : Width → Dir → Instr
  | .w8, .D => .xform8D
  | .w16, .D => .xform16D
  | .w8, .S => .xform8S
  | .w16, .S => .xform16S

/-- DETECT of a direction (R81, R86). -/
def detectOf : Dir → Instr
  | .D => .detectD
  | .S => .detectS

/-- RUN of a direction (R81, R86). -/
def runOf : Dir → Instr
  | .D => .runD
  | .S => .runS

/-- The decoder of R89: bits 7:6 first, then `OP`, `W` and `D` by R81, R82 and R84. -/
def decode (b : Byte) : Except DecodeError Instr :=
  if b &&& 0xC0#8 ≠ 0#8 then .error .reservedHighBits
  else if opField b = 1#4 then .ok (pdataOf (widthOfBit (wField b)) (dirOfBit (dField b)))
  else if opField b = 2#4 then .ok (paddrOf (widthOfBit (wField b)) (dirOfBit (dField b)))
  else if opField b = 3#4 then
    if wField b then .error .reservedWidth else .ok (detectOf (dirOfBit (dField b)))
  else if opField b = 4#4 then .ok (xformOf (widthOfBit (wField b)) (dirOfBit (dField b)))
  else if opField b = 5#4 then
    if wField b then .error .reservedWidth else .ok (runOf (dirOfBit (dField b)))
  else .error .reservedOperation

/-- The command byte of each command: the opcode map, row by row (R89). -/
def encode : Instr → Byte
  | .pdata8D => 0x01#8
  | .pdata16D => 0x11#8
  | .pdata8S => 0x21#8
  | .pdata16S => 0x31#8
  | .paddr8D => 0x02#8
  | .paddr16D => 0x12#8
  | .paddr8S => 0x22#8
  | .paddr16S => 0x32#8
  | .detectD => 0x03#8
  | .detectS => 0x23#8
  | .xform8D => 0x04#8
  | .xform16D => 0x14#8
  | .xform8S => 0x24#8
  | .xform16S => 0x34#8
  | .runD => 0x05#8
  | .runS => 0x25#8

/-- The instruction the decoder reads from a table row's bits: every command is one byte (R88), so it is bits 7..0
of `w`; the table gives every row eight bits. -/
def decodeTableWord (_nbits w : Nat) : Option Instr := (decode (BitVec.ofNat 8 w)).toOption

/-- The mnemonic of each command, `NAME.<w>.<d>` (R86, R89). -/
def mnemonic : Instr → String
  | .pdata8D => "PDATA.8.D"
  | .pdata16D => "PDATA.16.D"
  | .pdata8S => "PDATA.8.S"
  | .pdata16S => "PDATA.16.S"
  | .paddr8D => "PADDR.8.D"
  | .paddr16D => "PADDR.16.D"
  | .paddr8S => "PADDR.8.S"
  | .paddr16S => "PADDR.16.S"
  | .detectD => "DETECT.D"
  | .detectS => "DETECT.S"
  | .xform8D => "XFORM.8.D"
  | .xform16D => "XFORM.16.D"
  | .xform8S => "XFORM.8.S"
  | .xform16S => "XFORM.16.S"
  | .runD => "RUN.D"
  | .runS => "RUN.S"

/-- Every command, in the order of the opcode map (R89). -/
def allInstrs : List Instr :=
  [.pdata8D, .pdata16D, .pdata8S, .pdata16S, .paddr8D, .paddr16D, .paddr8S, .paddr16S,
   .detectD, .detectS, .xform8D, .xform16D, .xform8S, .xform16S, .runD, .runS]

/-- The command a name in a listing stands for: a mnemonic, or one of the aliases `DESCRAMBLE` for `RUN.D` and
`SCRAMBLE` for `RUN.S` (R87). -/
def instrOfName (n : String) : Option Instr :=
  if n = "DESCRAMBLE" then some .runD
  else if n = "SCRAMBLE" then some .runS
  else allInstrs.find? (fun i => mnemonic i == n)

end Sys2Proof
end

