-- ==== Sys2Proof/Machine/State.lean ====
section
/-! DEFINITION. The state of SRS-CORE, plain data (spec/10_state.md), the reasons a step can stop, and the state after
reset. -/

namespace Sys2Proof.Machine

/-- A buffer memory: the bytes that hold a value, addresses strictly rising (R38, R50). An address not listed
holds no value (R39, R42), so no byte value is left out of the list. -/
abbrev Memory := List Host.Cell

/-- What an unlisted address reads as: no value (R39 a, R42, R190; DESIGN CHOICE, assumption 6). -/
def Memory.unlisted (_a : Nat) : Option Byte := none

/-- The canonical form of a memory: addresses strictly rising. An entry never equals what an unlisted address reads
as, which is no value. -/
def Memory.wf (m : Memory) : Bool := decide ((m.map Prod.fst).Pairwise (· < ·))

/-- `STATUS.STATE` (R22). -/
inductive EngineState where
  | idle
  | busy
  | done
  | fault
deriving DecidableEq, Repr

/-- The four faults of the engine, `STATUS.CAUSE` (R170). Each is a NEXT state of the model, with `STATUS` in FAULT. -/
inductive Cause where
  /-- reserved command byte (R172) -/
  | illegalCommand
  /-- odd `LEN` at width 16 (R173) -/
  | lengthFault
  /-- `RUN` detected no known type (R174) -/
  | formatError
  /-- a permuted address is not below `LEN` (R175) -/
  | boundsFault
deriving DecidableEq, Repr

/-- `RomType` (R14, R27). -/
inductive RomType where
  | unknown
  | jp800
  | srjv80
  | srx
deriving DecidableEq, Repr

/-- What the host can do to the block; the listing's WR, RD, LD, WAIT (R86), the read of `OB` (R38), the sampling
of the combinational ports (R41), reset (R190). `CMD mnemonic` is `writeReg 0` of the command byte. -/
inductive HostEvent where
  /-- WR: write a value to the register of an index (R20) -/
  | writeReg (index : Nat) (value : Word)
  /-- RD: read the register of an index (R20) -/
  | readReg (index : Nat)
  /-- one byte of LD IB: write `IB[a]` (R38) -/
  | writeIB (a : Word) (b : Byte)
  /-- read `IB[a]` (R38) -/
  | readIB (a : Word)
  /-- read `OB[a]` (R38) -/
  | readOB (a : Word)
  /-- drive the port inputs and sample the outputs (R41) -/
  | samplePorts (aIn : Word) (dIn : BitVec 16) (selW selD : Bool)
  /-- WAIT: read `STATUS` until `STATE` is not BUSY (R86) -/
  | wait
  /-- assert the reset input (R190) -/
  | reset
deriving DecidableEq, Repr

/-- What the host's last read returned; the model's own (DESIGN CHOICE, assumption 12). -/
inductive HostData where
  | nothing
  | reg (v : Word)
  | byte (b : Byte)
  | ports (aOut : Word) (dOut : BitVec 16)
deriving DecidableEq, Repr

/-- Why the machine stops with a fault. The engine's own four faults are not here: they are next states (R178). -/
inductive Fault where
  /-- Raised by a host access to a byte of `IB` or `OB` at or above `CAP`: the address does not exist (R50,
  DEDUCED, assumption 8). Safe: no state follows. -/
  | noSuchBufferByte (a : Word)
deriving DecidableEq, Repr

/-- Why a step has no meaning. -/
inductive Refusal where
  /-- Raised by an arm of `exec` whose instruction has no meaning in the model; no arm is such. Safe. -/
  | notModelled (mnemonic : String)
  /-- Raised by DETECT, XFORM and RUN when `LEN` is above `CAP`: "the spec gives it no meaning and a model refuses
  it" (R197, R23). Safe. -/
  | lengthAboveCapacity
  /-- Raised when the engine or the host reads a byte of `IB` that holds no value (R195, U4). Safe. -/
  | inputByteWithoutValue (a : Nat)
  /-- Raised when the host reads a byte of `OB` that holds no value (R203, U2). Safe. -/
  | outputByteWithoutValue (a : Nat)
  /-- Raised by a host write to `CMD`, `LEN` or `OPA` while BUSY: "a model refuses it" (R198, U5). Safe. -/
  | registerWriteWhileBusy (index : Nat)
  /-- Raised by a host write to `IB` while BUSY: "a model refuses it" (R199, U4). Safe. -/
  | inputWriteWhileBusy (a : Word)
deriving DecidableEq, Repr

/-- The state of the machine. -/
structure State where
  /-- The configuration `TAB`, `WORD_ORDER`, `CAP` (R8); no step changes it (R37; DESIGN CHOICE, assumption 1). -/
  cfg : Config
  /-- `CMD`, index 0 (R21) -/
  cmd : Byte
  /-- `STATUS`, index 1 (R22) -/
  status : Byte
  /-- `LEN`, index 2 (R23) -/
  len : Word
  /-- `OPA`, index 3 (R24) -/
  opa : Word
  /-- `RES`, index 4 (R25) -/
  res : Word
  /-- `ROMTYPE`, index 5 (R27) -/
  romtype : Byte
  /-- `FPOS`, index 6 (R28) -/
  fpos : Word
  /-- `FADDR`, index 7 (R28) -/
  faddr : Word
  /-- `DIAG0` to `DIAG8`, indices 8 to 16 (R29) -/
  diag : Vector Byte 9
  /-- `POS`, the sequencer position counter (R26) -/
  pos : Word
  /-- `IB`, the input buffer (R38, R50) -/
  ib : Memory
  /-- `OB`, the output buffer (R38, R50) -/
  ob : Memory
  /-- MODEL: the host's pending actions, oldest first (DESIGN CHOICE, assumption 3) -/
  host : List HostEvent
  /-- MODEL: what the host's last read returned (DESIGN CHOICE, assumption 12) -/
  rdata : HostData
  /-- MODEL: how many free values have been drawn (DESIGN CHOICE, assumption 4) -/
  draws : Nat
deriving DecidableEq, Repr

/-- The machine right after reset (R42, R190): every register 0, both buffers without values, the tables untouched,
the host with nothing to do (DESIGN CHOICE, assumption 3). -/
def State.reset : State where
  cfg := Config.installed
  cmd := 0#8
  status := 0#8
  len := 0#32
  opa := 0#32
  res := 0#32
  romtype := 0#8
  fpos := 0#32
  faddr := 0#32
  diag := #v[0#8, 0#8, 0#8, 0#8, 0#8, 0#8, 0#8, 0#8, 0#8]
  pos := 0#32
  ib := []
  ob := []
  host := []
  rdata := .nothing
  draws := 0

end Sys2Proof.Machine
end

