-- ==== Sys2Proof/Machine/Flags.lean ====
section
/-! DEFINITION. The fields of the two packed registers, `STATUS` (spec/10_state.md R22) and `ROMTYPE` (R27). SRS-CORE has
no condition codes (R40): these are the only status bits. -/

namespace Sys2Proof.Machine

/-- The code of a value of `STATUS.STATE` (R22). -/
def EngineState.code : EngineState → BitVec 2
  | .idle => 0#2
  | .busy => 1#2
  | .done => 2#2
  | .fault => 3#2

/-- `STATUS.STATE`, bits 1:0 (R22). -/
def stateField (st : Byte) : BitVec 2 := st.extractLsb' 0 2

/-- The engine state a `STATUS` value shows (R22). -/
def engineState (st : Byte) : EngineState :=
  if stateField st = 0#2 then .idle
  else if stateField st = 1#2 then .busy
  else if stateField st = 2#2 then .done
  else .fault

/-- `STATUS.STATE <- e`: bits 1:0 change, no other (R22, R100). -/
def setStateField (st : Byte) (e : EngineState) : Byte := (st &&& 0xFC#8) ||| e.code.setWidth 8

/-- The code of a fault (R170). -/
def Cause.code : Cause → BitVec 4
  | .illegalCommand => 1#4
  | .lengthFault => 2#4
  | .formatError => 3#4
  | .boundsFault => 4#4

/-- `STATUS.CAUSE`, bits 7:4 (R22). -/
def causeField (st : Byte) : BitVec 4 := st.extractLsb' 4 4

/-- `STATUS.CAUSE <- code`: bits 7:4 change, no other (R22, R178 b). -/
def setCauseField (st : Byte) (c : Cause) : Byte := (st &&& 0x0F#8) ||| (c.code.setWidth 8 <<< 4)

/-- The engine state of a machine state (R22). -/
def State.engine (s : State) : EngineState := engineState s.status

/-- `STATUS.STATE <- e` (R22). -/
def State.setEngine (e : EngineState) (s : State) : State := { s with status := setStateField s.status e }

/-- `ROMTYPE.TYPE` (R27, R130). -/
def RomType.code : RomType → BitVec 2
  | .unknown => 0#2
  | .jp800 => 1#2
  | .srjv80 => 2#2
  | .srx => 3#2

/-- The bus width that goes with a type: the legal (TYPE, W) combinations of R27. -/
def RomType.width : RomType → Width
  | .unknown => .w8
  | .jp800 => .w8
  | .srjv80 => .w8
  | .srx => .w16

/-- The display name of a type (R27). -/
def RomType.displayName : RomType → String
  | .unknown => "Unknown"
  | .jp800 => "JP-800"
  | .srjv80 => "SR-JV80"
  | .srx => "SRX"

/-- The value of the `W` field for a width (R27, R82). -/
def widthBit : Width → BitVec 1
  | .w8 => 0#1
  | .w16 => 1#1

/-- `{ VALID = 1, 00, W, 00, TYPE }` (R130, R160). -/
def romtypeByte (t : RomType) (w : Width) : Byte := 1#1 ++ 0#2 ++ widthBit w ++ 0#2 ++ t.code

/-- The values a detection writes to `ROMTYPE`: VALID with one of the legal (TYPE, W) pairs (R27). -/
def romtypeOutcomes : List Byte :=
  [romtypeByte .unknown .w8, romtypeByte .jp800 .w8, romtypeByte .srjv80 .w8, romtypeByte .srx .w16]

/-- `ROMTYPE.TYPE`, bits 1:0, as a type (R27). -/
def romtypeType (b : Byte) : RomType :=
  if b.extractLsb' 0 2 = 1#2 then .jp800
  else if b.extractLsb' 0 2 = 2#2 then .srjv80
  else if b.extractLsb' 0 2 = 3#2 then .srx
  else .unknown

/-- `ROMTYPE.VALID`, bit 7 (R27). -/
def romtypeValid (b : Byte) : Bool := b.getLsbD 7

/-- `ROMTYPE.W`, bit 4, as a width (R27). -/
def romtypeWidth (b : Byte) : Width := if b.getLsbD 4 then .w16 else .w8

end Sys2Proof.Machine
end

