-- ==== Sys2Proof/Machine/Ops.lean ====
section
/-! DEFINITION. The shared operations over memories and registers: one byte of a buffer (spec/20_memory.md R50), the end of
a command, RAISING A FAULT and the only way out of one (spec/60_exceptions.md R178, R179). -/

namespace Sys2Proof.Machine

/-- The byte at address `a`, `none` where no byte holds a value (R50, R39). -/
def memRead : Memory → Nat → Option Byte
  | [], a => Memory.unlisted a
  | (k, b) :: m, a => if k = a then some b else memRead m a

/-- Write byte `b` at address `a`, keeping the canonical form (R50). -/
def memWrite : Memory → Nat → Byte → Memory
  | [], a, b => [(a, b)]
  | (k, c) :: m, a, b =>
    if a < k then (a, b) :: (k, c) :: m
    else if a = k then (a, b) :: m
    else (k, c) :: memWrite m a b

/-- A buffer with no byte that holds a value (R42, R178 d). -/
def memEmpty : Memory := []

/-- `STATUS.STATE <- DONE`, the end of a command that completed (R100, R110, R130, R150, R160; DEDUCED, assumption 17). -/
def complete (s : State) : State := s.setEngine .done

/-- `raise F(info)`, what a fault does (R178). The command ends; `STATUS.CAUSE` takes the code and `STATUS.STATE`
becomes FAULT, after the registers the rule records, which the caller has written; `OB` keeps its bytes except
after a BoundsFault, when every byte of it holds no value (R178 d; DEDUCED, assumption 7); nothing else changes. No control
is transferred: there is no handler, no vector, no saved state (R178 f). -/
def raiseFault (c : Cause) (s : State) : State :=
  let t : State := { s with status := setStateField (setCauseField s.status c) .fault }
  match c with
  | .boundsFault => { t with ob := memEmpty }
  | _ => t

/-- The reset input (R190, R192), the only exit from FAULT (R179): every register takes its reset value, every byte
of both buffers holds no value, the tables are not affected. The host's pending actions, what it last read and the
free-value counter are no state of the block's and stay (DESIGN CHOICE, assumption 13). -/
def resetMachine (s : State) : State :=
  { State.reset with cfg := s.cfg, host := s.host, rdata := s.rdata, draws := s.draws }

end Sys2Proof.Machine
end

