-- ==== Sys2Proof/Machine/Permute.lean ====
section
/-! DEFINITION. The permutation functions: `apply` on the pair form (spec/30_encoding.md R70), the data function `PD`
(spec/40_permute_data.md R101), the address function `PA` (spec/41_permute_address.md R111); the document's two other
presentations, the table-driven form on the mask form (R71, R73) and the closed form (R74); the converter from the
mask form, refusing by name (R72, R77); and the combinational bus ports (spec/10_state.md R41). -/

namespace Sys2Proof.Machine

/-- `HIGH(S, n)`: bits n-1 .. S set (R70). -/
def high (S n : Nat) : BitVec n := BitVec.allOnes n <<< S

/-- OR over the listed pairs, the first of them of source bit `k`, of `zext_n(v[k]) << pi(k)` (R70). -/
def moveBits {n : Nat} (v : BitVec n) : List Nat → Nat → BitVec n
  | [], _ => 0#n
  | p :: ps, k => (BitVec.setWidth n (BitVec.ofBool (v.getLsbD k)) <<< p) ||| moveBits v ps (k + 1)

/-- `apply((S, pi), n, v)` (R70). -/
def applyTable {n : Nat} (t : PairTable) (v : BitVec n) : BitVec n :=
  moveBits v t.pi 0 ||| (v &&& high t.span n)

/-- `PD(w, d, v)` (R101). -/
def permuteData (tab : TableSet) (w : Width) (d : Dir) (v : BitVec w.bits) : BitVec w.bits :=
  applyTable (tab.data w d) v

/-- `PA(w, d, a)` (R111). -/
def permuteAddr (tab : TableSet) (w : Width) (d : Dir) (a : Word) : Word := applyTable (tab.addr w d) a

/-- The number of entries of a data table in mask form, and of an address table of each width (R71, R75). -/
def dataMaskLength : Nat := 16

/-- See `dataMaskLength` (R71, R75): the span and one terminating zero entry. -/
def addrMaskLength : Width → Nat
  | .w8 => 20
  | .w16 => 19

/-- The mask form of a table, `N` entries: `bit(pi(k))` below the span, zero from there (R71). -/
def toMask (t : PairTable) (N : Nat) : List Word :=
  t.pi.map (fun p => BitVec.twoPow 32 p) ++ List.replicate (N - t.span) 0#32

/-- Why an array is no mask-form table (R71, R72, R77). -/
inductive MaskError where
  /-- the array does not have the number of entries of its kind and width (R71) -/
  | wrongLength
  /-- a non-zero entry stands after a zero entry (R77) -/
  | entryAfterZero
  /-- an entry has two or more bits set (R77) -/
  | severalBits
  /-- two entries have the same set bit (R77) -/
  | sameBitTwice
  /-- a set bit lies at or above the span (R77) -/
  | bitAboveSpan
deriving DecidableEq, Repr

/-- The pair form of a mask-form array of `N` entries (R72); an ill-formed array is refused by name (R77; the
number of entries is DEDUCED, assumption 22). -/
def fromMask (N : Nat) (T : List Word) : Except MaskError PairTable :=
  if T.length ≠ N then .error .wrongLength
  else if !maskIsPrefix T then .error .entryAfterZero
  else if !maskSingleBits T then .error .severalBits
  else if !maskNoCollision T then .error .sameBitTwice
  else if !maskInSpan T then .error .bitAboveSpan
  else .ok { pi := (maskPrefix T).map (fun m => m.toNat.log2) }

/-- The scan of R73 from source bit `k` on: `(out, pass)` when it ends, at the first zero entry or at the end of
the array. -/
def scanMask {n : Nat} (v : BitVec n) : List Word → Nat → BitVec n → BitVec n → BitVec n × BitVec n
  | [], _, out, pass => (out, pass)
  | m :: T, k, out, pass =>
    if m = 0#32 then (out, pass)
    else scanMask v T (k + 1) (if v.getLsbD k then out ||| m.setWidth n else out) (pass <<< 1)

/-- The table-driven form (R73). -/
def tableDriven {n : Nat} (T : List Word) (v : BitVec n) : BitVec n :=
  (scanMask v T 0 0#n (BitVec.allOnes n)).1 ||| (v &&& (scanMask v T 0 0#n (BitVec.allOnes n)).2)

/-- `shift(x, e)` (R74). -/
def shiftBy {n : Nat} (x : BitVec n) (e : Int) : BitVec n :=
  if 0 ≤ e then x <<< e.toNat else x >>> (-e).toNat

/-- OR over the listed pairs of `shift(v & bit(k), pi(k) - k)` (R74). -/
def closedBits {n : Nat} (v : BitVec n) : List Nat → Nat → BitVec n
  | [], _ => 0#n
  | p :: ps, k => shiftBy (v &&& BitVec.twoPow n k) ((p : Int) - (k : Int)) ||| closedBits v ps (k + 1)

/-- The closed form (R74). -/
def closedForm {n : Nat} (t : PairTable) (v : BitVec n) : BitVec n :=
  closedBits v t.pi 0 ||| (v &&& high t.span n)

/-- The combinational bus ports: `a_out` and `d_out` from `a_in`, `d_in`, `sel_w`, `sel_d` (R41). -/
def busPorts (tab : TableSet) (aIn : Word) (dIn : BitVec 16) (selW selD : Bool) : Word × BitVec 16 :=
  let d : Dir := if selD then .S else .D
  match selW with
  | false => (permuteAddr tab .w8 d aIn, (permuteData tab .w8 d (dIn.setWidth 8)).setWidth 16)
  | true => (permuteAddr tab .w16 d aIn, permuteData tab .w16 d dIn)

end Sys2Proof.Machine
end

