-- ==== Sys2Proof/Machine/Operands.lean ====
section
/-! DEFINITION. Where a command's operands come from and where its results go: the operand register (spec/30_encoding.md
R85), the access unit of a buffer and its byte order (spec/20_memory.md R53), the register file by index
(spec/10_state.md R20), and the header fields of the plaintext view (R58). -/

namespace Sys2Proof.Machine

/-- The word PDATA permutes: `x[OPA][w-1:0]` (R85, R100). -/
def dataOperand (w : Width) (s : State) : BitVec w.bits := s.opa.setWidth w.bits

/-- `x[RES] <- v` (R25). -/
def writeRes (v : Word) (s : State) : State := { s with res := v }

/-- The 16-bit word of the bytes at an even address and the next one (R53). -/
def joinWord : WordOrder → Byte → Byte → BitVec 16
  | .little, b0, b1 => b1 ++ b0
  | .big, b0, b1 => b0 ++ b1

/-- The byte of a 16-bit word that is stored at the even address (`odd` false) or at the odd one (R53). -/
def wordByte (o : WordOrder) (odd : Bool) (v : BitVec 16) : Byte :=
  match o, odd with
  | .little, false => v.extractLsb' 0 8
  | .little, true => v.extractLsb' 8 8
  | .big, false => v.extractLsb' 8 8
  | .big, true => v.extractLsb' 0 8

/-- `MemRead(m, a, n)` with `n` the access size of the width (R13, R53); the error is the address of a byte that
holds no value. -/
def readUnit (o : WordOrder) (m : Memory) (a : Nat) : (w : Width) → Except Nat (BitVec w.bits)
  | .w8 =>
    match memRead m a with
    | some b => .ok b
    | none => .error a
  | .w16 =>
    match memRead m a, memRead m (a + 1) with
    | some b0, some b1 => .ok (joinWord o b0 b1)
    | none, _ => .error a
    | some _, none => .error (a + 1)

/-- `MemWrite(m, a, n, v)` with `n` the access size of the width (R13, R53). -/
def writeUnit (o : WordOrder) (m : Memory) (a : Nat) : (w : Width) → BitVec w.bits → Memory
  | .w8, v => memWrite m a v
  | .w16, v => memWrite (memWrite m a (wordByte o false v)) (a + 1) (wordByte o true v)

/-- The value a host read of a register index returns: `CMD` reads 0 (R21), an 8-bit register is zero-extended
(DESIGN CHOICE, assumption 9), an index outside the table reads 0 (R20). -/
def regValue (s : State) : Nat → Word
  | 0 => 0#32
  | 1 => s.status.setWidth 32
  | 2 => s.len
  | 3 => s.opa
  | 4 => s.res
  | 5 => s.romtype.setWidth 32
  | 6 => s.fpos
  | 7 => s.faddr
  | n + 8 => (s.diag[n]?.getD 0#8).setWidth 32

/-- The command byte the engine runs next: the one latched in `CMD` (R21). -/
def fetchCommand (s : State) : Byte := s.cmd

/-- The registers that a detection writes: `ROMTYPE` and `DIAG0..8` (R27, R29). -/
def isDetectionReg (i : Nat) : Bool := i == 5 || decide (8 ≤ i ∧ i ≤ 16)

/-- Does the command write the register of an index while it is BUSY? `RES` is written by PDATA and PADDR (R25),
`ROMTYPE` and `DIAG0..8` by DETECT and RUN (R27, R29), `FPOS` and `FADDR` by none: they are 0 until `CAUSE` is 4 (R28). -/
def writesReg : Instr → Nat → Bool
  | .pdata8D, i => i == 4
  | .pdata16D, i => i == 4
  | .pdata8S, i => i == 4
  | .pdata16S, i => i == 4
  | .paddr8D, i => i == 4
  | .paddr16D, i => i == 4
  | .paddr8S, i => i == 4
  | .paddr16S, i => i == 4
  | .detectD, i => isDetectionReg i
  | .detectS, i => isDetectionReg i
  | .xform8D, _ => false
  | .xform16D, _ => false
  | .xform8S, _ => false
  | .xform16S, _ => false
  | .runD, i => isDetectionReg i
  | .runS, i => isDetectionReg i

/-- What a read of `ROMTYPE` returns while a detection is in flight: the value it held or one of the four outcomes
(R27), the free byte says which. -/
def freeRomtype (held pick : Byte) : Byte := (held :: romtypeOutcomes)[pick.toNat % 5]?.getD held

/-- The FREE VALUE for a host read of a register that the command in flight writes (R61 b; DESIGN CHOICE,
assumption 4): as wide as the register, and for `ROMTYPE` one of the values R27 allows. -/
def freeReg (i : Nat) (s : State) : Word :=
  match i with
  | 4 => Config.freeWord s.draws
  | 5 => (freeRomtype s.romtype (Config.freeByte s.draws)).setWidth 32
  | _ => (Config.freeByte s.draws).setWidth 32

/-- The bytes of `m` at `off`, `off + 1`, .., `off + n - 1`, each present or not. -/
def fieldBytes (m : Memory) (off : Nat) : Nat → List (Option Byte)
  | 0 => []
  | n + 1 => memRead m off :: fieldBytes m (off + 1) n

/-- The plaintext view after a run in a direction: `OB` after D, `IB` after S (R58, R162). -/
def plaintextBuffer (d : Dir) (s : State) : Memory :=
  match d with
  | .D => s.ob
  | .S => s.ib

/-- Offset and length of the ROM ID (R58): 6 bytes for a width-8 type, 16 for SRX. -/
def romIdField (t : RomType) : Nat × Nat :=
  match t.width with
  | .w8 => (0x20, 6)
  | .w16 => (0x20, 16)

/-- Offset and length of the date string (R58). -/
def dateField : Nat × Nat := (0x30, 10)

/-- The ROM ID the host reads after a run in a direction (R58, R162). -/
def romIdBytes (d : Dir) (s : State) : List (Option Byte) :=
  fieldBytes (plaintextBuffer d s) (romIdField (romtypeType s.romtype)).1 (romIdField (romtypeType s.romtype)).2

/-- The date string the host reads after a run in a direction (R58, R162). -/
def dateBytes (d : Dir) (s : State) : List (Option Byte) :=
  fieldBytes (plaintextBuffer d s) dateField.1 dateField.2

end Sys2Proof.Machine
end

