-- ==== Sys2Proof/Machine/Paddr.lean ====
section
/-! DEFINITION. PADDR, the address permutation (spec/41_permute_address.md R110). It raises no fault, makes no bounds check,
reads no memory and writes `RES` and `STATUS.STATE` only. -/

namespace Sys2Proof.Machine

/-- `x[RES] <- PA(w, d, x[OPA])`, then DONE (R110). -/
def paddr (w : Width) (d : Dir) (s : State) : Host.Outcome State Fault Refusal :=
  .next (complete (writeRes (permuteAddr s.cfg.tab w d s.opa) s))

/-- PADDR.8.D (R110). -/
def execPaddr8D (s : State) : Host.Outcome State Fault Refusal := paddr .w8 .D s

/-- PADDR.16.D (R110). -/
def execPaddr16D (s : State) : Host.Outcome State Fault Refusal := paddr .w16 .D s

/-- PADDR.8.S (R110). -/
def execPaddr8S (s : State) : Host.Outcome State Fault Refusal := paddr .w8 .S s

/-- PADDR.16.S (R110). -/
def execPaddr16S (s : State) : Host.Outcome State Fault Refusal := paddr .w16 .S s

end Sys2Proof.Machine
end

