-- ==== Sys2Proof/Machine/Pdata.lean ====
section
/-! DEFINITION. PDATA, the data permutation (spec/40_permute_data.md R100). It raises no fault, reads no memory and writes
`RES` and `STATUS.STATE` only. -/

namespace Sys2Proof.Machine

/-- `x[RES] <- zext_32(PD(w, d, x[OPA][w-1:0]))`, then DONE (R100). -/
def pdata (w : Width) (d : Dir) (s : State) : Host.Outcome State Fault Refusal :=
  .next (complete (writeRes ((permuteData s.cfg.tab w d (dataOperand w s)).setWidth 32) s))

/-- PDATA.8.D (R100). -/
def execPdata8D (s : State) : Host.Outcome State Fault Refusal := pdata .w8 .D s

/-- PDATA.16.D (R100). -/
def execPdata16D (s : State) : Host.Outcome State Fault Refusal := pdata .w16 .D s

/-- PDATA.8.S (R100). -/
def execPdata8S (s : State) : Host.Outcome State Fault Refusal := pdata .w8 .S s

/-- PDATA.16.S (R100). -/
def execPdata16S (s : State) : Host.Outcome State Fault Refusal := pdata .w16 .S s

end Sys2Proof.Machine
end

