-- ==== Sys2Proof/Machine/Detect.lean ====
section
/-! DEFINITION. DETECT and the detector function that RUN also uses (spec/42_format_detect.md R130 to R140). -/

namespace Sys2Proof.Machine

/-- One byte of the plaintext view (R131). -/
inductive ViewByte where
  /-- the byte is there -/
  | present (b : Byte)
  /-- the offset or the read address is not below `LEN` (R137) -/
  | absent
  /-- the byte of `IB` to read holds no value; the model refuses the command (R195; DESIGN CHOICE, assumption 6) -/
  | unwritten (a : Nat)
deriving DecidableEq, Repr

/-- `View(d, w, j)` (R131), with absent bytes (R137). Direction S reads `IB[j]`; direction D gathers the byte that
the descrambling transform of width `w` would put at `j`. -/
def viewByte (c : Config) (len : Word) (ib : Memory) (d : Dir) (w : Width) (j : Nat) : ViewByte :=
  if ¬ j < len.toNat then .absent
  else match d, w with
    | .S, _ =>
      match memRead ib j with
      | some b => .present b
      | none => .unwritten j
    | .D, .w8 =>
      let a := (permuteAddr c.tab .w8 .S (BitVec.ofNat 32 j)).toNat
      if ¬ a < len.toNat then .absent
      else match memRead ib a with
        | some b => .present (permuteData c.tab .w8 .D b)
        | none => .unwritten a
    | .D, .w16 =>
      let a := (permuteAddr c.tab .w16 .S (BitVec.ofNat 32 j &&& 0xFFFFFFFE#32)).toNat
      if ¬ a + 1 < len.toNat then .absent
      else match readUnit c.wordOrder ib a .w16 with
        | .ok v => .present (wordByte c.wordOrder (decide (j % 2 = 1)) (permuteData c.tab .w16 .D v))
        | .error e => .unwritten e

/-- The offsets of the nine header bytes: the signature at 0 to 5, the family tag at 0xC to 0xE (R132, R58). -/
def headerOffsets : List Nat := [0, 1, 2, 3, 4, 5, 0xC, 0xD, 0xE]

/-- `header(d, w) = sig(d, w)` followed by `tag(d, w)` (R133). -/
def header (c : Config) (len : Word) (ib : Memory) (d : Dir) (w : Width) : List ViewByte :=
  headerOffsets.map (viewByte c len ib d w)

/-- `sig`, the first six bytes of a header (R132). -/
def headerSig (h : List ViewByte) : List ViewByte := h.take 6

/-- `tag`, the last three bytes of a header (R132). -/
def headerTag (h : List ViewByte) : List ViewByte := h.drop 6

/-- The bytes of "Roland" (R59, G1; PRESUMED, assumption 16). -/
def sigRoland : List Byte := [0x52#8, 0x6F#8, 0x6C#8, 0x61#8, 0x6E#8, 0x64#8]

/-- The bytes of "JP-800" (R59, G1; PRESUMED, assumption 16). -/
def sigJp800 : List Byte := [0x4A#8, 0x50#8, 0x2D#8, 0x38#8, 0x30#8, 0x30#8]

/-- The SR-JV80 family tag, "O", 0xB0, "S" (R59). -/
def tagSrjv80 : List Byte := [0x4F#8, 0xB0#8, 0x53#8]

/-- The SRX family tag, "O", 0xB0, "X" (R59). -/
def tagSrx : List Byte := [0x4F#8, 0xB0#8, 0x58#8]

/-- "A comparison is equal only if every byte is present and equal" (R132). -/
def bytesMatch (h : List ViewByte) (k : List Byte) : Bool := h == k.map ViewByte.present

/-- The address of a byte without a value that a header needed, if there is one. -/
def headerHole : List ViewByte → Option Nat
  | [] => none
  | .unwritten a :: _ => some a
  | _ :: h => headerHole h

/-- The outcome of the detector: the type, the width and the header of the last trial (R133). -/
structure Detection where
  rom : RomType
  width : Width
  header : List ViewByte
deriving DecidableEq, Repr

/-- Trial T8 on its header (R133). -/
def trial8 (h : List ViewByte) : Option Detection :=
  if bytesMatch (headerSig h) sigRoland && bytesMatch (headerTag h) tagSrjv80 then
    some { rom := .srjv80, width := .w8, header := h }
  else if bytesMatch (headerSig h) sigJp800 then some { rom := .jp800, width := .w8, header := h }
  else none

/-- Trial T16 on its header, the last one: SRX or Unknown (R133). -/
def trial16 (h : List ViewByte) : Detection :=
  if bytesMatch (headerSig h) sigRoland && bytesMatch (headerTag h) tagSrx then
    { rom := .srx, width := .w16, header := h }
  else { rom := .unknown, width := .w8, header := h }

/-- `Detect(d)` (R133). The error is the address of a byte of `IB` without a value that a trial needed. -/
def detect (c : Config) (len : Word) (ib : Memory) (d : Dir) : Except Nat Detection :=
  match headerHole (header c len ib d .w8) with
  | some a => .error a
  | none =>
    match trial8 (header c len ib d .w8) with
    | some r => .ok r
    | none =>
      match headerHole (header c len ib d .w16) with
      | some a => .error a
      | none => .ok (trial16 (header c len ib d .w16))

/-- The byte `DIAG` stores for a header byte: an absent one is stored as 0x00 (R135). -/
def diagByte : ViewByte → Byte
  | .present b => b
  | _ => 0#8

/-- `x[DIAG0..8] <- h` (R130, R135). -/
def diagOf (h : List ViewByte) : Vector Byte 9 :=
  let at' (k : Nat) : Byte := diagByte (h[k]?.getD .absent)
  #v[at' 0, at' 1, at' 2, at' 3, at' 4, at' 5, at' 6, at' 7, at' 8]

/-- The writes of a detection: `DIAG0..8` and `ROMTYPE` (R130, R160). -/
def latchDetection (r : Detection) (s : State) : State :=
  { s with diag := diagOf r.header, romtype := romtypeByte r.rom r.width }

/-- DETECT of a direction (R130). -/
def detectCommand (d : Dir) (s : State) : Host.Outcome State Fault Refusal :=
  if s.cfg.cap.val < s.len.toNat then .refused .lengthAboveCapacity
  else match detect s.cfg s.len s.ib d with
    | .error a => .refused (.inputByteWithoutValue a)
    | .ok r => .next (complete (latchDetection r s))

/-- DETECT.D (R130). -/
def execDetectD (s : State) : Host.Outcome State Fault Refusal := detectCommand .D s

/-- DETECT.S (R130). -/
def execDetectS (s : State) : Host.Outcome State Fault Refusal := detectCommand .S s

end Sys2Proof.Machine
end

