-- ==== Sys2Proof/Machine/Xform.lean ====
section
/-! DEFINITION. XFORM, the whole-buffer transform (spec/43_rom_transform.md R150 to R158). -/

namespace Sys2Proof.Machine

/-- What one iteration of the loop of R150 does at position `i`. -/
inductive Visit where
  /-- the permuted unit was written; the output buffer is now `ob` -/
  | wrote (ob : Memory)
  /-- the permuted address `a` is not below `LEN`: BoundsFault (R154) -/
  | outOfBounds (a : Word)
  /-- a byte of `IB` to read holds no value (R195; DESIGN CHOICE, assumption 6) -/
  | unwritten (a : Nat)
deriving DecidableEq, Repr

/-- The body of the loop at position `i` (R150): permute the position, check the bound, then read and write
the permuted unit (DEDUCED, assumption 18). -/
def visit (c : Config) (w : Width) (d : Dir) (len : Word) (ib : Memory) (i : Word) (ob : Memory) : Visit :=
  let a := permuteAddr c.tab w d i
  if len ≤ a then .outOfBounds a
  else match readUnit c.wordOrder ib i.toNat w with
    | .error e => .unwritten e
    | .ok v => .wrote (writeUnit c.wordOrder ob a.toNat w (permuteData c.tab w d v))

/-- How the loop ends. -/
inductive LoopEnd where
  | completed (pos : Word) (ob : Memory)
  | outOfBounds (i a : Word)
  | unwritten (a : Nat)
deriving DecidableEq, Repr

/-- The loop of R150 in the reference order, `k` iterations from position `pos` (R26, R55; DESIGN CHOICE,
assumption 5). -/
def xformLoop (c : Config) (w : Width) (d : Dir) (len : Word) (ib : Memory) : Nat → Word → Memory → LoopEnd
  | 0, pos, ob => .completed pos ob
  | k + 1, pos, ob =>
    match visit c w d len ib pos ob with
    | .outOfBounds a => .outOfBounds pos a
    | .unwritten e => .unwritten e
    | .wrote ob' => xformLoop c w d len ib k (pos + BitVec.ofNat 32 w.bytes) ob'

/-- How many positions the loop visits: `LEN` at width 8, `LEN/2` at width 16 (R55, R206). -/
def iterations (w : Width) (len : Word) : Nat := len.toNat / w.bytes

/-- Width 16 and `LEN[0] = 1` (R150, R156). -/
def oddLength (w : Width) (len : Word) : Bool :=
  match w with
  | .w8 => false
  | .w16 => len.getLsbD 0

/-- The body of XFORM (R150), which RUN also runs (R160). `POS` keeps the position it was at when a BoundsFault ends
the loop (R178 e). -/
def xformBody (w : Width) (d : Dir) (s : State) : Host.Outcome State Fault Refusal :=
  if oddLength w s.len then .next (raiseFault .lengthFault s)
  else match xformLoop s.cfg w d s.len s.ib (iterations w s.len) 0#32 s.ob with
    | .completed pos ob => .next (complete { s with pos := pos, ob := ob })
    | .outOfBounds i a => .next (raiseFault .boundsFault { s with pos := i, fpos := i, faddr := a })
    | .unwritten a => .refused (.inputByteWithoutValue a)

/-- XFORM of a width and a direction; `LEN` above `CAP` is refused (R150, R197). -/
def xform (w : Width) (d : Dir) (s : State) : Host.Outcome State Fault Refusal :=
  if s.cfg.cap.val < s.len.toNat then .refused .lengthAboveCapacity else xformBody w d s

/-- XFORM.8.D (R150). -/
def execXform8D (s : State) : Host.Outcome State Fault Refusal := xform .w8 .D s

/-- XFORM.16.D (R150). -/
def execXform16D (s : State) : Host.Outcome State Fault Refusal := xform .w16 .D s

/-- XFORM.8.S (R150). -/
def execXform8S (s : State) : Host.Outcome State Fault Refusal := xform .w8 .S s

/-- XFORM.16.S (R150). -/
def execXform16S (s : State) : Host.Outcome State Fault Refusal := xform .w16 .S s

end Sys2Proof.Machine
end

