-- ==== Sys2Proof/Machine/Run.lean ====
section
/-! DEFINITION. RUN, detection and then the transform at the detected width (spec/43_rom_transform.md R160 to R162). -/

namespace Sys2Proof.Machine

/-- RUN of a direction (R160): latch the detection, FormatError when the type is Unknown, else the body of XFORM at
the detected width. `LEN` above `CAP` is refused (R197). -/
def runCommand (d : Dir) (s : State) : Host.Outcome State Fault Refusal :=
  if s.cfg.cap.val < s.len.toNat then .refused .lengthAboveCapacity
  else match detect s.cfg s.len s.ib d with
    | .error a => .refused (.inputByteWithoutValue a)
    | .ok r =>
      if r.rom = .unknown then .next (raiseFault .formatError (latchDetection r s))
      else xformBody r.width d (latchDetection r s)

/-- RUN.D (R160). -/
def execRunD (s : State) : Host.Outcome State Fault Refusal := runCommand .D s

/-- RUN.S (R160). -/
def execRunS (s : State) : Host.Outcome State Fault Refusal := runCommand .S s

end Sys2Proof.Machine
end

