-- ==== Sys2Proof/Machine/Dispatch.lean ====
section
/-! DEFINITION. The one dispatch from a command to its meaning, one arm per constructor of Instr. -/

namespace Sys2Proof.Machine

def exec (i : Instr) (s : State) : Host.Outcome State Fault Refusal :=
  match i with
  | .pdata8D => Sys2Proof.Machine.execPdata8D s
  | .pdata16D => Sys2Proof.Machine.execPdata16D s
  | .pdata8S => Sys2Proof.Machine.execPdata8S s
  | .pdata16S => Sys2Proof.Machine.execPdata16S s
  | .paddr8D => Sys2Proof.Machine.execPaddr8D s
  | .paddr16D => Sys2Proof.Machine.execPaddr16D s
  | .paddr8S => Sys2Proof.Machine.execPaddr8S s
  | .paddr16S => Sys2Proof.Machine.execPaddr16S s
  | .detectD => Sys2Proof.Machine.execDetectD s
  | .detectS => Sys2Proof.Machine.execDetectS s
  | .xform8D => Sys2Proof.Machine.execXform8D s
  | .xform16D => Sys2Proof.Machine.execXform16D s
  | .xform8S => Sys2Proof.Machine.execXform8S s
  | .xform16S => Sys2Proof.Machine.execXform16S s
  | .runD => Sys2Proof.Machine.execRunD s
  | .runS => Sys2Proof.Machine.execRunS s

end Sys2Proof.Machine
end

