-- ==== Sys2Proof/Machine/HostPort.lean ====
section
/-! DEFINITION. What a host action does to the block (spec/10_state.md R20 to R25, R41; spec/20_memory.md R50;
spec/60_exceptions.md R180; spec/70_reset_and_hazards.md R190, R198 to R200). -/

namespace Sys2Proof.Machine

/-- What a write of a register does when the engine is IDLE or DONE (R20 to R24): a write of `CMD` latches the low
eight bits (DESIGN CHOICE, assumption 9) and starts the command; `LEN` and `OPA` take the value; every other index ignores it. -/
def regWriteReady (i : Nat) (v : Word) (s : State) : State :=
  match i with
  | 0 => { s with cmd := v.setWidth 8 }.setEngine .busy
  | 2 => { s with len := v }
  | 3 => { s with opa := v }
  | _ => s

/-- The registers whose write while BUSY has no meaning: `CMD`, `LEN`, `OPA` (R198). -/
def isWritableReg (i : Nat) : Bool := i == 0 || i == 2 || i == 3

/-- A host write of a register (R20 to R24, R180, R198). -/
def hostWriteReg (i : Nat) (v : Word) (s : State) : Host.Outcome State Fault Refusal :=
  match s.engine with
  | .idle => .next (regWriteReady i v s)
  | .done => .next (regWriteReady i v s)
  | .busy => if isWritableReg i then .refused (.registerWriteWhileBusy i) else .next s
  | .fault => .next s

/-- Does the command in flight write the register of an index (R25, R27, R29)? A reserved byte writes none (R172). -/
def inFlightWrites (i : Nat) (s : State) : Bool :=
  match decode (fetchCommand s) with
  | .ok c => writesReg c i
  | .error _ => false

/-- A host read of a register (R20): what the register holds. While BUSY a register that the command in flight writes
answers a free value (R61 b; DESIGN CHOICE, assumption 4); every other holds its value (R25, R28, R139). -/
def hostReadReg (i : Nat) (s : State) : Host.Outcome State Fault Refusal :=
  if s.engine = .busy ∧ inFlightWrites i s then
    .next { s with rdata := .reg (freeReg i s), draws := s.draws + 1 }
  else .next { s with rdata := .reg (regValue s i) }

/-- A host write of `IB[a]` (R38, R199), taken in FAULT too (DEDUCED, assumption 14). -/
def hostWriteIB (a : Word) (b : Byte) (s : State) : Host.Outcome State Fault Refusal :=
  if ¬ a.toNat < s.cfg.cap.val then .fault (.noSuchBufferByte a)
  else if s.engine = .busy then .refused (.inputWriteWhileBusy a)
  else .next { s with ib := memWrite s.ib a.toNat b }

/-- A host read of `IB[a]`, harmless at any time (R38, R57, R199). -/
def hostReadIB (a : Word) (s : State) : Host.Outcome State Fault Refusal :=
  if ¬ a.toNat < s.cfg.cap.val then .fault (.noSuchBufferByte a)
  else match memRead s.ib a.toNat with
    | some b => .next { s with rdata := .byte b }
    | none => .refused (.inputByteWithoutValue a.toNat)

/-- A host read of `OB[a]` (R38). While BUSY it returns a free value (R200; DESIGN CHOICE, assumption 4). -/
def hostReadOB (a : Word) (s : State) : Host.Outcome State Fault Refusal :=
  if ¬ a.toNat < s.cfg.cap.val then .fault (.noSuchBufferByte a)
  else if s.engine = .busy then
    .next { s with rdata := .byte (Config.freeByte s.draws), draws := s.draws + 1 }
  else match memRead s.ob a.toNat with
    | some b => .next { s with rdata := .byte b }
    | none => .refused (.outputByteWithoutValue a.toNat)

/-- One host action. WAIT is reached here only when the engine is not BUSY: its last read of `STATUS` (R86;
DESIGN CHOICE, assumption 19). -/
def hostAct (e : HostEvent) (s : State) : Host.Outcome State Fault Refusal :=
  match e with
  | .writeReg i v => hostWriteReg i v s
  | .readReg i => hostReadReg i s
  | .writeIB a b => hostWriteIB a b s
  | .readIB a => hostReadIB a s
  | .readOB a => hostReadOB a s
  | .samplePorts aIn dIn selW selD =>
    .next { s with rdata := .ports (busPorts s.cfg.tab aIn dIn selW selD).1 (busPorts s.cfg.tab aIn dIn selW selD).2 }
  | .wait => .next { s with rdata := .reg (regValue s 1) }
  | .reset => .next (resetMachine s)

end Sys2Proof.Machine
end

