-- ==== Sys2Proof/Machine/Sequencer.lean ====
section
/-! DEFINITION. Who moves next, and what the engine runs (spec/00_scope.md R7, spec/10_state.md R21). -/

namespace Sys2Proof.Machine

/-- The engine's move while BUSY: the latched byte is decoded and its command runs to its end; a reserved byte raises
IllegalCommand (R21, R84, R172, R205). -/
def engineMove (s : State) : Host.Outcome State Fault Refusal :=
  match decode (fetchCommand s) with
  | .ok i => exec i s
  | .error _ => .next (raiseFault .illegalCommand s)

/-- Nothing stops the engine from moving: the host has nothing pending, or waits (R86; DESIGN CHOICE, assumption 2). -/
def hostYields (s : State) : Bool :=
  match s.host with
  | [] => true
  | .wait :: _ => true
  | _ => false

/-- One move of the machine. While BUSY and the host yields, the engine runs its command; otherwise the host's oldest
pending action takes place; with nothing pending, an engine that is not BUSY keeps all its state (R187, R191). -/
def moveNext (s : State) : Host.Outcome State Fault Refusal :=
  if s.engine = .busy ∧ hostYields s then engineMove s
  else match s.host with
    | [] => .next s
    | e :: rest => hostAct e { s with host := rest }

/-- `s` with the command byte of a table row latched and started, and no host action before it: what the host's write
of `CMD` does in IDLE or DONE (R21; DESIGN CHOICE, assumption 3). -/
def placeCommand (s : State) (w : Nat) : State :=
  { s with cmd := BitVec.ofNat 8 w, host := [] }.setEngine .busy

end Sys2Proof.Machine
end

