-- ==== Sys2Proof/Machine/Step.lean ====
section
/-! DEFINITION. The one step of the machine, and the state in which the next step runs a given command. -/

namespace Sys2Proof.Machine

/-- One step: a whole command of the engine, or one action of the host (R7, R205). -/
def step (s : State) : Host.Outcome State Fault Refusal := moveNext s

/-- `s` with a table row's command byte where the next step takes its command from: latched in `CMD`, the engine BUSY,
no host action pending (DESIGN CHOICE, assumption 3). -/
def State.withFetchWord (s : State) (_nbits w : Nat) : State := placeCommand s w

end Sys2Proof.Machine
end

