-- ==== Sys2Proof/Safety.lean ====
section
/-! DEFINITION. What a safe run and a proper launch are, in the terms the claims use: the launch premise of a command
(spec/70_reset_and_hazards.md R193), closed lengths (spec/43_rom_transform.md R152), and the invariant every step
keeps. -/

namespace Sys2Proof.Machine

/-- Every byte `IB[0 .. LEN-1]` holds a value (R193, R195). -/
abbrev inputLoaded (s : State) : Prop := ∀ n < s.len.toNat, (memRead s.ib n).isSome = true

/-- The launch premise of a buffer command (R193): `LEN <= CAP` and the input is loaded. `WF(TAB)` is carried by the
configuration. -/
abbrev bufferReady (s : State) : Prop := s.len.toNat ≤ s.cfg.cap.val ∧ inputLoaded s

/-- `PA(w, d, n)` as a number, for a position `n` (R111). -/
abbrev permutedPos (tab : TableSet) (w : Width) (d : Dir) (n : Nat) : Nat :=
  (permuteAddr tab w d (BitVec.ofNat 32 n)).toNat

/-- Position `n` is one the loop of R150 visits for length `L`: `0 <= n < L`, even at width 16 (R152). -/
abbrev visited (w : Width) (L n : Nat) : Prop := n < L ∧ n % w.bytes = 0

/-- `Closed(w, d, L)` (R152). -/
abbrev closedLength (tab : TableSet) (w : Width) (d : Dir) (L : Nat) : Prop :=
  L % w.bytes = 0 ∧ ∀ n < L, n % w.bytes = 0 → permutedPos tab w d n < L

/-- No address listed in `m` reaches `n`. -/
abbrev Memory.below (m : Memory) (n : Nat) : Prop := ∀ c ∈ m, c.1 < n

/-- The values `ROMTYPE` takes: 0 before any detection, then VALID with one of the legal (TYPE, W) pairs (R27). -/
def romtypeValues : List Byte := [0x00#8, 0x80#8, 0x81#8, 0x82#8, 0x93#8]

/-- What every reachable state keeps. -/
structure State.Inv (s : State) : Prop where
  /-- the memories are canonical -/
  ib_wf : s.ib.wf = true
  ob_wf : s.ob.wf = true
  /-- no byte beyond the capacity holds a value (R50) -/
  ib_below : s.ib.below s.cfg.cap.val
  ob_below : s.ob.below s.cfg.cap.val
  /-- bits 3:2 of `STATUS` read 0 (R22) -/
  status_reserved : s.status.extractLsb' 2 2 = 0#2
  /-- `CAUSE` is 0 to 4 (R22, R170) -/
  cause_legal : (causeField s.status).toNat ≤ 4
  /-- `CAUSE` is 0 exactly when `STATE` is not FAULT (R22, R170) -/
  cause_iff : s.engine = .fault ↔ causeField s.status ≠ 0#4
  /-- the legal values of `ROMTYPE` (R27) -/
  romtype_legal : s.romtype ∈ romtypeValues
  /-- `FPOS` and `FADDR` are 0 unless `STATUS.CAUSE` is 4 (R28) -/
  bounds_regs : causeField s.status ≠ 4#4 → s.fpos = 0#32 ∧ s.faddr = 0#32
  /-- after a BoundsFault `FPOS < LEN <= FADDR`, `POS` is the position and no byte of `OB` holds a value (R175, R178) -/
  bounds_fault : causeField s.status = 4#4 →
    s.fpos < s.len ∧ s.len ≤ s.faddr ∧ s.pos = s.fpos ∧ s.ob = memEmpty
  /-- after a FormatError `ROMTYPE` is VALID and Unknown (R174) -/
  format_error : causeField s.status = 3#4 → s.romtype = 0x80#8
  /-- after a LengthFault `LEN` is odd (R173) -/
  length_fault : causeField s.status = 2#4 → s.len.getLsbD 0 = true

end Sys2Proof.Machine
end

