-- ==== Sys2Proof/Certificates/Slice0/Obligations.lean ====
section
/-! DEFINITION. The statements of the model, from the numbered rules of the spec. Each `def Obligations.<Name> : Prop` says
in its docstring which rules it formalises; the definitions under `Sys2Proof.Claims` are the phrases they share. -/

namespace Sys2Proof.Claims

open Sys2Proof.Machine

/-- `exec i s` completes: it answers the next state `t`. -/
abbrev completesAs (i : Instr) (s t : State) : Prop := exec i s = .next t

/-- PDATA's effect, bit by bit (R100, R101, R106): bit `pi(k)` of `RES` is bit `k` of `OPA`, bits from the span to
`w - 1` keep their place, the bits above are 0; nothing but `RES` and `STATUS.STATE` changes. -/
def pdataEffect (i : Instr) (w : Width) (d : Dir) : Prop :=
  ∀ s : State, ∃ r : Word,
    completesAs i s { s with res := r, status := setStateField s.status .done } ∧
    (∀ k p, (s.cfg.tab.data w d).pi[k]? = some p → r.getLsbD p = s.opa.getLsbD k) ∧
    (∀ k, (s.cfg.tab.data w d).span ≤ k → k < w.bits → r.getLsbD k = s.opa.getLsbD k) ∧
    (∀ k, w.bits ≤ k → r.getLsbD k = false)

/-- PADDR's effect, bit by bit (R110, R111): bit `pi(k)` of `RES` is bit `k` of `OPA`, bits from the span up are
copied; nothing but `RES` and `STATUS.STATE` changes, and no bound is checked. -/
def paddrEffect (i : Instr) (w : Width) (d : Dir) : Prop :=
  ∀ s : State, ∃ r : Word,
    completesAs i s { s with res := r, status := setStateField s.status .done } ∧
    (∀ k p, (s.cfg.tab.addr w d).pi[k]? = some p → r.getLsbD p = s.opa.getLsbD k) ∧
    (∀ k, (s.cfg.tab.addr w d).span ≤ k → r.getLsbD k = s.opa.getLsbD k)

/-- View bytes `off`, `off + 1`, .. of trial width `w` are all present and equal to the listed bytes (R132). -/
abbrev viewShows (s : State) (d : Dir) (w : Width) (off : Nat) (bytes : List Byte) : Prop :=
  ∀ (k : Nat) (h : k < bytes.length), viewByte s.cfg s.len s.ib d w (off + k) = .present bytes[k]

/-- The width-8 trial finds an SR-JV80 image (R133, T8). -/
abbrev showsSrjv80 (s : State) (d : Dir) : Prop :=
  viewShows s d .w8 0 sigRoland ∧ viewShows s d .w8 0xC tagSrjv80

/-- The width-8 trial finds a JP-800 image; the tag is not examined (R133, T8). -/
abbrev showsJp800 (s : State) (d : Dir) : Prop := viewShows s d .w8 0 sigJp800

/-- The width-16 trial finds an SRX image (R133, T16). -/
abbrev showsSrx (s : State) (d : Dir) : Prop :=
  viewShows s d .w16 0 sigRoland ∧ viewShows s d .w16 0xC tagSrx

/-- `DIAG0..8` hold the header bytes of the trial of width `w`, an absent byte as 0x00 (R135). -/
def diagShows (s t : State) (d : Dir) (w : Width) : Prop :=
  ∀ (k : Fin 9) off, headerOffsets[k.val]? = some off →
    (∀ b, viewByte s.cfg s.len s.ib d w off = .present b → t.diag[k.val] = b) ∧
    (viewByte s.cfg s.len s.ib d w off = .absent → t.diag[k.val] = 0#8)

/-- `ROMTYPE` and `DIAG0..8` of `t` are the outcome of the detector on `s` (R130, R133, R135): SR-JV80, else JP-800,
else SRX, else Unknown, the trials in that order. -/
def detectionOutcome (s t : State) (d : Dir) : Prop :=
  (showsSrjv80 s d → t.romtype = 0x82#8 ∧ diagShows s t d .w8) ∧
  (¬ showsSrjv80 s d → showsJp800 s d → t.romtype = 0x81#8 ∧ diagShows s t d .w8) ∧
  (¬ showsSrjv80 s d → ¬ showsJp800 s d → showsSrx s d → t.romtype = 0x93#8 ∧ diagShows s t d .w16) ∧
  (¬ showsSrjv80 s d → ¬ showsJp800 s d → ¬ showsSrx s d → t.romtype = 0x80#8 ∧ diagShows s t d .w16)

/-- DETECT's effect (R130, R137): on a loaded input it completes, and only `ROMTYPE`, `DIAG0..8` and `STATUS.STATE`
change. -/
def detectEffect (i : Instr) (d : Dir) : Prop :=
  ∀ s : State, bufferReady s → ∃ t : State, completesAs i s t ∧ detectionOutcome s t d ∧
    t = { s with romtype := t.romtype, diag := t.diag, status := setStateField s.status .done }

/-- `ob'` is the output buffer that the transform of width `w` and direction `d` makes of the input of `s` (R157): the
unit at the permuted address of every visited position is the permuted unit of the input, every byte below `LEN`
holds a value, and no byte at or above `LEN` is written. -/
def transformed (s : State) (w : Width) (d : Dir) (ob' : Memory) : Prop :=
  (∀ n, visited w s.len.toNat n → ∃ v, readUnit s.cfg.wordOrder s.ib n w = .ok v ∧
    readUnit s.cfg.wordOrder ob' (permutedPos s.cfg.tab w d n) w = .ok (permuteData s.cfg.tab w d v)) ∧
  (∀ a < s.len.toNat, (memRead ob' a).isSome = true) ∧
  (∀ a, s.len.toNat ≤ a → memRead ob' a = memRead s.ob a)

/-- XFORM's effect on a closed length (R150, R152, R154, R157): it completes, `POS` is `LEN`, `OB` is the transformed input,
and only `OB`, `POS` and `STATUS.STATE` change. -/
def xformEffect (i : Instr) (w : Width) (d : Dir) : Prop :=
  ∀ s : State, bufferReady s → closedLength s.cfg.tab w d s.len.toNat →
    ∃ ob' : Memory, completesAs i s { s with ob := ob', pos := s.len, status := setStateField s.status .done } ∧
      transformed s w d ob'

/-- XFORM on a length that is not closed (R154, R175): it ends in a BoundsFault at the lowest offending position `n`, in a
next state. -/
def xformBoundsFault (i : Instr) (w : Width) (d : Dir) : Prop :=
  ∀ s : State, bufferReady s → s.len.toNat % w.bytes = 0 → ¬ closedLength s.cfg.tab w d s.len.toNat →
    ∃ n, visited w s.len.toNat n ∧ s.len.toNat ≤ permutedPos s.cfg.tab w d n ∧
      (∀ m < n, m % w.bytes = 0 → permutedPos s.cfg.tab w d m < s.len.toNat) ∧
      completesAs i s
        { s with pos := BitVec.ofNat 32 n, fpos := BitVec.ofNat 32 n
                 faddr := permuteAddr s.cfg.tab w d (BitVec.ofNat 32 n)
                 ob := []
                 status := setStateField (setCauseField s.status .boundsFault) .fault }

/-- XFORM over an input that is not wholly loaded has no meaning (R195): on a closed length it is refused, naming a byte
below `LEN` that holds no value. -/
def xformUnloaded (i : Instr) (w : Width) (d : Dir) : Prop :=
  ∀ s : State, s.len.toNat ≤ s.cfg.cap.val → closedLength s.cfg.tab w d s.len.toNat → ¬ inputLoaded s →
    ∃ a < s.len.toNat, memRead s.ib a = none ∧ exec i s = .refused (.inputByteWithoutValue a)

/-- LengthFault (R156, R173): an odd `LEN` at width 16 ends the command before any access; only `STATUS` changes. -/
def oddLengthFault (i : Instr) : Prop :=
  ∀ s : State, s.len.toNat ≤ s.cfg.cap.val → s.len.toNat % 2 = 1 →
    completesAs i s { s with status := setStateField (setCauseField s.status .lengthFault) .fault }

/-- `LEN` = 0 (R155): XFORM writes nothing and completes. -/
def emptyTransform (i : Instr) : Prop :=
  ∀ s : State, s.len = 0#32 → completesAs i s { s with pos := 0#32, status := setStateField s.status .done }

/-- RUN's effect when a type is found and the length is closed for its width (R160): `ROMTYPE` and `DIAG0..8` as DETECT
leaves them, then the transform at the width of the type; nothing else changes. -/
def runEffect (i : Instr) (d : Dir) : Prop :=
  ∀ (s : State) (w : Width), bufferReady s →
    (w = .w8 → showsSrjv80 s d ∨ showsJp800 s d) →
    (w = .w16 → ¬ showsSrjv80 s d ∧ ¬ showsJp800 s d ∧ showsSrx s d) →
    closedLength s.cfg.tab w d s.len.toNat →
    ∃ t : State, completesAs i s t ∧ detectionOutcome s t d ∧ transformed s w d t.ob ∧
      t = { s with romtype := t.romtype, diag := t.diag, ob := t.ob, pos := s.len
                   status := setStateField s.status .done }

/-- RUN when no type is found (R160, R161, R174): FormatError, with `ROMTYPE` VALID and Unknown, the header bytes of the last
trial in `DIAG0..8`, and `OB` as it was. -/
def runFormatError (i : Instr) (d : Dir) : Prop :=
  ∀ s : State, bufferReady s → ¬ showsSrjv80 s d → ¬ showsJp800 s d → ¬ showsSrx s d →
    ∃ t : State, completesAs i s t ∧ t.romtype = 0x80#8 ∧ diagShows s t d .w16 ∧
      t = { s with romtype := t.romtype, diag := t.diag
                   status := setStateField (setCauseField s.status .formatError) .fault }

/-- RUN is DETECT and then XFORM at the detected width, when a type is found (R160, R87): the same outcome, whatever the
transform step does. -/
def runIsDetectThenXform (run detect : Instr) (xform : Width → Instr) : Prop :=
  ∀ s u : State, completesAs detect s u → romtypeType u.romtype ≠ .unknown →
    exec run s = exec (xform (romtypeWidth u.romtype)) u

/-- A buffer command with `LEN` above `CAP` is refused (R197). -/
def refusedAboveCapacity (i : Instr) : Prop :=
  ∀ s : State, s.cfg.cap.val < s.len.toNat → exec i s = .refused .lengthAboveCapacity

/-- The plaintext image in `IB` at the start of `s` has the listed bytes at an offset (R58, R59). -/
abbrev imageHas (s : State) (off : Nat) (bytes : List Byte) : Prop :=
  ∀ (k : Nat) (h : k < bytes.length), memRead s.ib (off + k) = some bytes[k]

/-- Visit the listed positions in the listed order, writing `OB` (R163); `none` where a visit does not write. -/
def visitInOrder (c : Config) (w : Width) (d : Dir) (len : Word) (ib : Memory) : List Nat → Memory → Option Memory
  | [], ob => some ob
  | n :: ns, ob =>
    match visit c w d len ib (BitVec.ofNat 32 n) ob with
    | .wrote ob' => visitInOrder c w d len ib ns ob'
    | _ => none

/-- `p` is a machine that has completed the transform `i`, and `s` holds its output as input, the length and the
configuration kept: what the host's copy of `OB` to `IB` leaves (R159). -/
def holdsOutputOf (i : Instr) (p s : State) : Prop :=
  ∃ t, completesAs i p t ∧ t.engine = .done ∧ s.ib = t.ob ∧ s.len = p.len ∧ s.cfg = p.cfg

/-- The command in flight is one of the listed ones; a reserved byte is none (R21, R84). -/
abbrev inFlight (s : State) (l : List Instr) : Prop := ∃ i ∈ l, decode s.cmd = .ok i

/-- The commands that write `RES` (R25). -/
abbrev resWriters : List Instr :=
  [.pdata8D, .pdata16D, .pdata8S, .pdata16S, .paddr8D, .paddr16D, .paddr8S, .paddr16S]

/-- The commands that write `ROMTYPE` and `DIAG0..8` (R27, R29). -/
abbrev detectors : List Instr := [.detectD, .detectS, .runD, .runS]

/-- A header byte that the trial of width `w` reads from inside the buffer holds no value (R131, R132, R195): in direction
S the byte at the offset, in direction D the byte, or a byte of the word, at the permuted offset. -/
def headerByteUnloaded (s : State) (d : Dir) (w : Width) : Prop :=
  ∃ j ∈ headerOffsets, j < s.len.toNat ∧
    match d, w with
    | .S, _ => memRead s.ib j = none
    | .D, .w8 => permutedPos s.cfg.tab .w8 .S j < s.len.toNat ∧ memRead s.ib (permutedPos s.cfg.tab .w8 .S j) = none
    | .D, .w16 =>
      permutedPos s.cfg.tab .w16 .S (j - j % 2) + 1 < s.len.toNat ∧
        (memRead s.ib (permutedPos s.cfg.tab .w16 .S (j - j % 2)) = none ∨
          memRead s.ib (permutedPos s.cfg.tab .w16 .S (j - j % 2) + 1) = none)

/-- The engine runs next: it is BUSY and the host has nothing pending or waits. -/
def engineMovesNext (s : State) : Prop := s.engine = .busy ∧ (s.host = [] ∨ ∃ rest, s.host = .wait :: rest)

end Sys2Proof.Claims

open Sys2Proof Sys2Proof.Machine Sys2Proof.Claims

/-! ### Encoding -/

/-- Sanity: the command bytes of R89, one or more of each operation, decode to the commands they stand for. -/
def Obligations.WrittenBytesDecode : Prop :=
  decode 0x01#8 = .ok .pdata8D ∧ decode 0x31#8 = .ok .pdata16S ∧ decode 0x12#8 = .ok .paddr16D ∧
  decode 0x22#8 = .ok .paddr8S ∧ decode 0x03#8 = .ok .detectD ∧ decode 0x23#8 = .ok .detectS ∧
  decode 0x14#8 = .ok .xform16D ∧ decode 0x24#8 = .ok .xform8S ∧ decode 0x05#8 = .ok .runD ∧
  decode 0x25#8 = .ok .runS

/-- Decode and encode agree on every command, and a byte that decodes is the encoding of what it decodes to (R80, R89). -/
def Obligations.DecodeAndEncodeAgree : Prop :=
  (∀ i : Instr, i.wellFormed = true → decode (encode i) = .ok i) ∧
  (∀ (b : Byte) (i : Instr), decode b = .ok i → encode i = b)

/-- The bytes that encode no operation are exactly those of R84, and sixteen bytes remain. -/
def Obligations.ReservedBytes : Prop :=
  (∀ b : Byte, (∃ e, decode b = .error e) ↔
    (b.getLsbD 7 = true ∨ b.getLsbD 6 = true ∨ (b.toNat % 16 = 0 ∨ 6 ≤ b.toNat % 16) ∨
      ((b.toNat % 16 = 3 ∨ b.toNat % 16 = 5) ∧ b.getLsbD 4 = true))) ∧
  ((List.range 256).filter (fun n => (decode (BitVec.ofNat 8 n)).isOk)).length = 16

/-! ### Tables and the permutation functions -/

/-- R103: the table-driven form on the mask form, the closed form and `apply` give the same value, for every table, every
width that holds its span and every input. -/
def Obligations.EngineFormsAgree : Prop :=
  ∀ (t : PairTable) (N n : Nat) (v : BitVec n), t.bijective = true → t.span ≤ n → t.span ≤ 32 → t.span ≤ N →
    tableDriven (toMask t N) v = applyTable t v ∧ closedForm t v = applyTable t v

/-- R71, R72: the converter inverts the mask form of every table, and what it accepts is the mask form of a bijective
table. -/
def Obligations.MaskFormRoundTrip : Prop :=
  (∀ (t : PairTable) (N : Nat), t.bijective = true → t.span ≤ 32 → t.span ≤ N → fromMask N (toMask t N) = .ok t) ∧
  (∀ (N : Nat) (T : List Word) (t : PairTable), fromMask N T = .ok t →
    t.bijective = true ∧ T.length = N ∧ toMask t N = T)

/-- R77: an array with an entry of two set bits, a non-zero entry after a zero entry, two entries with the same set bit,
or a set bit at or above the span (the number of non-zero entries) is refused. -/
def Obligations.IllFormedArraysRefused : Prop :=
  ∀ (N : Nat) (T : List Word),
    ((∃ m ∈ T, ∃ a b, a ≠ b ∧ m.getLsbD a = true ∧ m.getLsbD b = true) ∨
     (∃ (i j : Nat) (m : Word), i < j ∧ T[i]? = some 0#32 ∧ T[j]? = some m ∧ m ≠ 0#32) ∨
     (∃ (i j a : Nat) (m n : Word), i ≠ j ∧ T[i]? = some m ∧ T[j]? = some n ∧ m.getLsbD a = true ∧
       n.getLsbD a = true) ∨
     (∃ m ∈ T, ∃ a, m.getLsbD a = true ∧ (T.filter (fun m => m != 0#32)).length ≤ a)) →
    ∃ e, fromMask N T = .error e

/-- R104: for both widths and both directions, permuting and permuting back is the identity on every data word. -/
def Obligations.DataInverseLaw : Prop :=
  ∀ (c : Config) (w : Width) (v : BitVec w.bits),
    permuteData c.tab w .D (permuteData c.tab w .S v) = v ∧ permuteData c.tab w .S (permuteData c.tab w .D v) = v

/-- R115: the same on every 32-bit address. -/
def Obligations.AddressInverseLaw : Prop :=
  ∀ (c : Config) (w : Width) (a : Word),
    permuteAddr c.tab w .D (permuteAddr c.tab w .S a) = a ∧ permuteAddr c.tab w .S (permuteAddr c.tab w .D a) = a

/-- R105: `PD` is a bijection that keeps the number of set bits; 0 and all ones stay. -/
def Obligations.DataPermutationIsBijective : Prop :=
  ∀ (c : Config) (w : Width) (d : Dir),
    Function.Bijective (permuteData c.tab w d) ∧
    (∀ v : BitVec w.bits, (List.range w.bits).countP (fun k => (permuteData c.tab w d v).getLsbD k)
      = (List.range w.bits).countP (fun k => v.getLsbD k)) ∧
    permuteData c.tab w d (0#w.bits) = 0#w.bits ∧
    permuteData c.tab w d (BitVec.allOnes w.bits) = BitVec.allOnes w.bits

/-- R112: at width 8 bits 31 to 19 are copied; bits 18 to 0 are permuted among themselves: the table sends the positions
below 19 onto the positions below 19, the bit that ends at `pi(k)` is bit `k`, and these bits of the result depend only
on these bits of the address; bit 0 does not stay at bit 0. -/
def Obligations.AddressWidth8 : Prop :=
  ∀ (c : Config) (d : Dir),
    (∀ a : Word, permuteAddr c.tab .w8 d a &&& 0xFFF80000#32 = a &&& 0xFFF80000#32) ∧
    (∀ k < 19, ∃ p < 19, (c.tab.addr .w8 d).pi[k]? = some p ∧
      ∀ a : Word, (permuteAddr c.tab .w8 d a).getLsbD p = a.getLsbD k) ∧
    (∀ p < 19, ∃ k < 19, (c.tab.addr .w8 d).pi[k]? = some p) ∧
    (∀ a b : Word, a &&& 0x0007FFFF#32 = b &&& 0x0007FFFF#32 →
      permuteAddr c.tab .w8 d a &&& 0x0007FFFF#32 = permuteAddr c.tab .w8 d b &&& 0x0007FFFF#32) ∧
    (permuteAddr c.tab .w8 d 1#32).getLsbD 0 = false

/-- R113: at width 16 the bits of 0xFFFC400D are copied; the other fourteen, those of 0x0003BFF2, are permuted among
themselves: the table sends their positions onto their positions, the bit that ends at `pi(k)` is bit `k`, and these bits
of the result depend only on these bits of the address. -/
def Obligations.AddressWidth16 : Prop :=
  ∀ (c : Config) (d : Dir),
    (∀ a : Word, permuteAddr c.tab .w16 d a &&& 0xFFFC400D#32 = a &&& 0xFFFC400D#32) ∧
    (∀ k, (0x0003BFF2#32).getLsbD k = true → ∃ p, (0x0003BFF2#32).getLsbD p = true ∧
      (c.tab.addr .w16 d).pi[k]? = some p ∧
      ∀ a : Word, (permuteAddr c.tab .w16 d a).getLsbD p = a.getLsbD k) ∧
    (∀ p, (0x0003BFF2#32).getLsbD p = true →
      ∃ k, (0x0003BFF2#32).getLsbD k = true ∧ (c.tab.addr .w16 d).pi[k]? = some p) ∧
    (∀ a b : Word, a &&& 0x0003BFF2#32 = b &&& 0x0003BFF2#32 →
      permuteAddr c.tab .w16 d a &&& 0x0003BFF2#32 = permuteAddr c.tab .w16 d b &&& 0x0003BFF2#32)

/-- R117: at width 16 bit 0 stays, evenness is kept both ways, and the odd address of a word follows its even one; at
width 8 bit 0 moves. -/
def Obligations.AddressWidth16KeepsAlignment : Prop :=
  ∀ (c : Config) (d : Dir) (a : Word),
    (permuteAddr c.tab .w16 d a).getLsbD 0 = a.getLsbD 0 ∧
    ((permuteAddr c.tab .w16 d a).toNat % 2 = 0 ↔ a.toNat % 2 = 0) ∧
    (a.toNat % 2 = 0 → permuteAddr c.tab .w16 d (a + 1#32) = permuteAddr c.tab .w16 d a + 1#32) ∧
    (permuteAddr c.tab .w8 d 1#32).getLsbD 0 = false

/-- R118: the permutation acts inside each aligned block of `2^S` bytes. -/
def Obligations.AddressBlockStructure : Prop :=
  ∀ (c : Config) (w : Width) (d : Dir) (q r : Nat), r < 2 ^ addrSpan w → q * 2 ^ addrSpan w + r < 2 ^ 32 →
    permutedPos c.tab w d (q * 2 ^ addrSpan w + r) = q * 2 ^ addrSpan w + permutedPos c.tab w d r ∧
    permutedPos c.tab w d r < 2 ^ addrSpan w

/-- R116: `PA` is a bijection of the 32-bit values and of every range `[0, m * 2^S)` that fits in 32 bits. -/
def Obligations.AddressBijection : Prop :=
  ∀ (c : Config) (w : Width) (d : Dir),
    Function.Bijective (permuteAddr c.tab w d) ∧
    ∀ m, 1 ≤ m → m * 2 ^ addrSpan w ≤ 2 ^ 32 →
      (∀ a : Word, a.toNat < m * 2 ^ addrSpan w → (permuteAddr c.tab w d a).toNat < m * 2 ^ addrSpan w) ∧
      (∀ b : Word, b.toNat < m * 2 ^ addrSpan w →
        ∃ a : Word, a.toNat < m * 2 ^ addrSpan w ∧ permuteAddr c.tab w d a = b)

/-! ### PDATA and PADDR -/

/-- R100, R101, R106: PDATA completes in every state and moves each bit as its table says; nothing else changes. -/
def Obligations.PdataMovesEachBit : Prop :=
  pdataEffect .pdata8D .w8 .D ∧ pdataEffect .pdata16D .w16 .D ∧
  pdataEffect .pdata8S .w8 .S ∧ pdataEffect .pdata16S .w16 .S

/-- R110, R111: PADDR completes in every state and moves each bit as its table says; nothing else changes. -/
def Obligations.PaddrMovesEachBit : Prop :=
  paddrEffect .paddr8D .w8 .D ∧ paddrEffect .paddr16D .w16 .D ∧
  paddrEffect .paddr8S .w8 .S ∧ paddrEffect .paddr16S .w16 .S

/-- R41: the ports have the functions of PADDR and PDATA: in every engine state, what the host samples is what the two
commands of the same width and direction would leave in `RES`, and only the host's latch changes. -/
def Obligations.PortsAgreeWithCommands : Prop :=
  ∀ (s : State) (rest : List HostEvent) (aIn : Word) (dIn : BitVec 16) (selW selD : Bool),
    s.host = .samplePorts aIn dIn selW selD :: rest →
    ∃ aOut dOut, step s = .next { s with host := rest, rdata := .ports aOut dOut } ∧
      ∃ ta td, exec (paddrOf (widthOfBit selW) (dirOfBit selD)) { s with opa := aIn } = .next ta ∧ ta.res = aOut ∧
        exec (pdataOf (widthOfBit selW) (dirOfBit selD)) { s with opa := dIn.setWidth 32 } = .next td ∧
        td.res = dOut.setWidth 32

/-! ### DETECT -/

/-- R130, R133, R135: DETECT completes on every loaded input, with the type and width of the first trial that matches and
the header bytes of the last trial made; nothing else changes. -/
def Obligations.DetectFindsFirstMatch : Prop := detectEffect .detectD .D ∧ detectEffect .detectS .S

/-- R136, direction S: the named bytes of a plaintext image decide the type, whatever the other bytes and the tables. -/
def Obligations.DetectPlaintext : Prop :=
  ∀ s : State, bufferReady s → 15 ≤ s.len.toNat → ∃ t, completesAs .detectS s t ∧
    (imageHas s 0 sigRoland → imageHas s 0xC tagSrjv80 → t.romtype = romtypeByte .srjv80 .w8) ∧
    (imageHas s 0 sigRoland → imageHas s 0xC tagSrx → t.romtype = romtypeByte .srx .w16) ∧
    (imageHas s 0 sigJp800 → t.romtype = romtypeByte .jp800 .w8) ∧
    (¬ imageHas s 0 sigRoland → ¬ imageHas s 0 sigJp800 → t.romtype = romtypeByte .unknown .w8)

/-- R131: on a closed length the view of direction D is, byte for byte, the buffer that the descrambling transform of
that width produces. -/
def Obligations.ViewIsTheDescrambledBuffer : Prop :=
  ∀ (s : State) (w : Width) (i : Instr), (w = .w8 ∧ i = .xform8D) ∨ (w = .w16 ∧ i = .xform16D) →
    bufferReady s → closedLength s.cfg.tab w .D s.len.toNat →
    ∃ t, completesAs i s t ∧ ∀ j < s.len.toNat, ∃ b, memRead t.ob j = some b ∧
      viewByte s.cfg s.len s.ib .D w j = .present b

/-- R136, direction D: DETECT.D on the output of the scrambling transform of a plaintext image finds the type of the
image; for an SRX image provided that the width-8 trial does not match. -/
def Obligations.DetectScrambledImage : Prop :=
  ∀ p s : State, bufferReady p → 15 ≤ p.len.toNat →
    (closedLength p.cfg.tab .w8 .S p.len.toNat → holdsOutputOf .xform8S p s →
      (imageHas p 0 sigRoland → imageHas p 0xC tagSrjv80 →
        ∃ t, completesAs .detectD s t ∧ t.romtype = romtypeByte .srjv80 .w8) ∧
      (imageHas p 0 sigJp800 → ∃ t, completesAs .detectD s t ∧ t.romtype = romtypeByte .jp800 .w8)) ∧
    (closedLength p.cfg.tab .w16 .S p.len.toNat → holdsOutputOf .xform16S p s →
      imageHas p 0 sigRoland → imageHas p 0xC tagSrx → ¬ showsSrjv80 s .D → ¬ showsJp800 s .D →
      ∃ t, completesAs .detectD s t ∧ t.romtype = romtypeByte .srx .w16)

/-- R137 with `LEN` = 0: every header byte is absent, no byte is read, DETECT answers Unknown in both directions. -/
def Obligations.DetectOnEmptyBuffer : Prop :=
  ∀ s : State, s.len = 0#32 → ∀ i ∈ [Instr.detectD, Instr.detectS],
    completesAs i s { s with romtype := 0x80#8, diag := #v[0#8, 0#8, 0#8, 0#8, 0#8, 0#8, 0#8, 0#8, 0#8]
                             status := setStateField s.status .done }

/-! ### XFORM -/

/-- R150, R152, R157: on a loaded input of a closed length XFORM completes and `OB` is the transformed input. -/
def Obligations.XformTransformsClosedLength : Prop :=
  xformEffect .xform8D .w8 .D ∧ xformEffect .xform16D .w16 .D ∧
  xformEffect .xform8S .w8 .S ∧ xformEffect .xform16S .w16 .S

/-- R157, gather form: unit `j` of `OB` is the permuted unit of `IB` at `PA(w, inv(d), j)`. -/
def Obligations.XformGatherForm : Prop :=
  ∀ (s t : State) (w : Width) (d : Dir), completesAs (xformOf w d) s t → t.engine = .done →
    ∀ j, visited w s.len.toNat j → ∃ v,
      readUnit s.cfg.wordOrder s.ib (permutedPos s.cfg.tab w d.inv j) w = .ok v ∧
      readUnit s.cfg.wordOrder t.ob j w = .ok (permuteData s.cfg.tab w d v)

/-- R154, R175, R178: on a loaded input whose length is not closed XFORM ends in a BoundsFault at the lowest offending
position, and no byte of `OB` holds a value. -/
def Obligations.XformBoundsFaults : Prop :=
  xformBoundsFault .xform8D .w8 .D ∧ xformBoundsFault .xform16D .w16 .D ∧
  xformBoundsFault .xform8S .w8 .S ∧ xformBoundsFault .xform16S .w16 .S

/-- R156, R173: the width-16 transforms refuse an odd length with LengthFault; only `STATUS` changes. -/
def Obligations.XformOddLengthFaults : Prop := oddLengthFault .xform16D ∧ oddLengthFault .xform16S

/-- R155: XFORM of length 0 completes with nothing written; RUN of length 0 faults with FormatError. -/
def Obligations.EmptyBufferCommands : Prop :=
  emptyTransform .xform8D ∧ emptyTransform .xform16D ∧ emptyTransform .xform8S ∧ emptyTransform .xform16S ∧
  ∀ s : State, s.len = 0#32 → ∀ i ∈ [Instr.runD, Instr.runS],
    ∃ t, completesAs i s t ∧ t.engine = .fault ∧ causeField t.status = Cause.formatError.code ∧ t.ob = s.ob

/-- R159: the round trip of the transform, both ways: `B` in `IB`, transformed, copied back and transformed the other
way, gives `B` in `OB`. -/
def Obligations.TransformRoundTrip : Prop :=
  ∀ (p s : State) (w : Width) (d : Dir), bufferReady p → closedLength p.cfg.tab w d p.len.toNat →
    holdsOutputOf (xformOf w d) p s →
    ∃ t, completesAs (xformOf w d.inv) s t ∧ t.engine = .done ∧
      ∀ a < p.len.toNat, memRead t.ob a = memRead p.ib a

/-- R163: `OB` after a completed XFORM is what visiting the positions in any order gives. -/
def Obligations.VisitingOrderIrrelevant : Prop :=
  ∀ (s t : State) (w : Width) (d : Dir) (order : List Nat), s.ob.wf = true →
    completesAs (xformOf w d) s t → t.engine = .done →
    order.Perm ((List.range s.len.toNat).filter (fun n => n % w.bytes == 0)) →
    visitInOrder s.cfg w d s.len s.ib order s.ob = some t.ob

/-- R152: every multiple of `2^S` is closed, whatever the table values. -/
def Obligations.BlockMultiplesAreClosed : Prop :=
  ∀ (c : Config) (w : Width) (d : Dir) (m : Nat), m * 2 ^ addrSpan w < 2 ^ 32 →
    closedLength c.tab w d (m * 2 ^ addrSpan w)

/-- R152: a length is closed in one direction exactly when it is in the other, and then the permutation is onto the
visited positions. -/
def Obligations.ClosedInBothDirections : Prop :=
  ∀ (c : Config) (w : Width) (L : Nat), L < 2 ^ 32 →
    (closedLength c.tab w .S L ↔ closedLength c.tab w .D L) ∧
    ∀ d, closedLength c.tab w d L → ∀ j, visited w L j → ∃ n, visited w L n ∧ permutedPos c.tab w d n = j

/-- R195 with the model's treatment (assumption 6): XFORM of a closed length over an input with a byte that holds no value
is refused, and the refusal names such a byte. (On a length that is not closed a BoundsFault may come first, assumption
18.) -/
def Obligations.UnloadedInputRefused : Prop :=
  xformUnloaded .xform8D .w8 .D ∧ xformUnloaded .xform16D .w16 .D ∧
  xformUnloaded .xform8S .w8 .S ∧ xformUnloaded .xform16S .w16 .S

/-- R195 with the model's treatment (assumption 6): DETECT and RUN are refused when a header byte that a trial reads holds no
value, at the width-8 trial or, where that trial finds no type, at the width-16 trial; the refusal names such a byte. -/
def Obligations.UnloadedHeaderRefused : Prop :=
  ∀ (s : State) (d : Dir), s.len.toNat ≤ s.cfg.cap.val →
    headerByteUnloaded s d .w8 ∨ (¬ showsSrjv80 s d ∧ ¬ showsJp800 s d ∧ headerByteUnloaded s d .w16) →
    ∀ i ∈ [detectOf d, runOf d],
      ∃ a < s.len.toNat, memRead s.ib a = none ∧ exec i s = .refused (.inputByteWithoutValue a)

/-- R197: the eight buffer commands refuse a `LEN` above `CAP`. -/
def Obligations.LengthAboveCapacityRefused : Prop :=
  ∀ i ∈ [Instr.detectD, .detectS, .xform8D, .xform16D, .xform8S, .xform16S, .runD, .runS], refusedAboveCapacity i

/-! ### RUN -/

/-- R160: RUN on a recognised image of a closed length completes: the detection's registers and the transformed buffer. -/
def Obligations.RunDetectsAndTransforms : Prop := runEffect .runD .D ∧ runEffect .runS .S

/-- R160, R174, R161: RUN on an input of no known type ends in FormatError, with no byte of `OB` written. -/
def Obligations.RunFormatErrors : Prop := runFormatError .runD .D ∧ runFormatError .runS .S

/-- R160, R87: RUN does what DETECT and then XFORM at the detected width do, completing or not. -/
def Obligations.RunIsDetectThenXform : Prop :=
  runIsDetectThenXform .runD .detectD (fun w => match w with | .w8 => .xform8D | .w16 => .xform16D) ∧
  runIsDetectThenXform .runS .detectS (fun w => match w with | .w8 => .xform8S | .w16 => .xform16S)

/-- R136, R159, R160: RUN.S and, on its output, RUN.D give back the image and the same type, provided for a width-16
image that the width-8 trial of the scrambled image does not match. -/
def Obligations.RunRoundTrip : Prop :=
  ∀ p u s : State, bufferReady p → completesAs .runS p u → u.engine = .done →
    holdsOutputOf .runS p s →
    (romtypeWidth u.romtype = .w16 → ¬ showsSrjv80 s .D ∧ ¬ showsJp800 s .D) →
    ∃ t, completesAs .runD s t ∧ t.engine = .done ∧ t.romtype = u.romtype ∧
      ∀ a < p.len.toNat, memRead t.ob a = memRead p.ib a

/-! ### Faults, reset and the host -/

/-- R21, R205: when it is the engine's move, a step runs the command that the latched byte decodes to. -/
def Obligations.StepRunsDecodedCommand : Prop :=
  ∀ (s : State) (i : Instr), engineMovesNext s → decode s.cmd = .ok i → step s = exec i s

/-- R84, R172: when it is the engine's move, a reserved byte raises IllegalCommand; only `STATUS` changes. -/
def Obligations.ReservedByteRaisesIllegalCommand : Prop :=
  ∀ (s : State) (e : DecodeError), engineMovesNext s → decode s.cmd = .error e →
    step s = .next { s with status := setStateField (setCauseField s.status .illegalCommand) .fault }

/-- R21, R23, R24: in IDLE and DONE a write of `CMD` latches the byte and makes the engine BUSY, a write of `LEN` or `OPA`
stores the value, and a write of any other index changes no register. -/
def Obligations.HostWritesWhenReady : Prop :=
  ∀ (s : State) (rest : List HostEvent) (i : Nat) (v : Word),
    s.engine = .idle ∨ s.engine = .done → s.host = .writeReg i v :: rest →
    (i = 0 → step s = .next { s with host := rest, cmd := v.setWidth 8, status := setStateField s.status .busy }) ∧
    (i = 2 → step s = .next { s with host := rest, len := v }) ∧
    (i = 3 → step s = .next { s with host := rest, opa := v }) ∧
    (i ≠ 0 → i ≠ 2 → i ≠ 3 → step s = .next { s with host := rest })

/-- R198, R199: while BUSY a host write of `CMD`, `LEN`, `OPA` or `IB` has no meaning and is refused by name. -/
def Obligations.HostWritesWhileBusyRefused : Prop :=
  ∀ (s : State) (rest : List HostEvent), s.engine = .busy →
    (∀ i v, i = 0 ∨ i = 2 ∨ i = 3 → s.host = .writeReg i v :: rest →
      step s = .refused (.registerWriteWhileBusy i)) ∧
    (∀ a b, a.toNat < s.cfg.cap.val → s.host = .writeIB a b :: rest → step s = .refused (.inputWriteWhileBusy a))

/-- R20, R22: while BUSY a host write of a read-only register, or of an index outside the table, is ignored. -/
def Obligations.ReadOnlyWritesWhileBusyIgnored : Prop :=
  ∀ (s : State) (rest : List HostEvent) (i : Nat) (v : Word), s.engine = .busy → i ≠ 0 → i ≠ 2 → i ≠ 3 →
    s.host = .writeReg i v :: rest → step s = .next { s with host := rest }

/-- R20, R57, R38: outside a command a host read returns what the register or the byte holds, an index outside the table
returns 0, and the read changes only the host's latch. -/
def Obligations.HostReadsWhenNotBusy : Prop :=
  ∀ (s : State) (rest : List HostEvent), s.engine ≠ .busy →
    (s.host = .readReg 0 :: rest → step s = .next { s with host := rest, rdata := .reg 0#32 }) ∧
    (s.host = .readReg 2 :: rest → step s = .next { s with host := rest, rdata := .reg s.len }) ∧
    (s.host = .readReg 3 :: rest → step s = .next { s with host := rest, rdata := .reg s.opa }) ∧
    (s.host = .readReg 4 :: rest → step s = .next { s with host := rest, rdata := .reg s.res }) ∧
    (s.host = .readReg 6 :: rest → step s = .next { s with host := rest, rdata := .reg s.fpos }) ∧
    (s.host = .readReg 7 :: rest → step s = .next { s with host := rest, rdata := .reg s.faddr }) ∧
    (∀ i, 17 ≤ i → s.host = .readReg i :: rest → step s = .next { s with host := rest, rdata := .reg 0#32 }) ∧
    (∀ a b, a.toNat < s.cfg.cap.val → memRead s.ib a.toNat = some b → s.host = .readIB a :: rest →
      step s = .next { s with host := rest, rdata := .byte b }) ∧
    (∀ a b, a.toNat < s.cfg.cap.val → memRead s.ob a.toNat = some b → s.host = .readOB a :: rest →
      step s = .next { s with host := rest, rdata := .byte b })

/-- R20 with the model's choice of how an 8-bit register sits in a 32-bit read, zero-extended (assumption 9): outside a
command the host reads `STATUS`, `ROMTYPE` and `DIAG0..8`. R86 with the model's choice of WAIT as one step that leaves
`STATUS` in the host's latch (assumptions 12 and 19): a WAIT that ends reads `STATUS`. -/
def Obligations.ByteRegisterReads : Prop :=
  ∀ (s : State) (rest : List HostEvent), s.engine ≠ .busy →
    (s.host = .readReg 1 :: rest → step s = .next { s with host := rest, rdata := .reg (s.status.setWidth 32) }) ∧
    (s.host = .readReg 5 :: rest → step s = .next { s with host := rest, rdata := .reg (s.romtype.setWidth 32) }) ∧
    (∀ k : Fin 9, s.host = .readReg (8 + k.val) :: rest →
      step s = .next { s with host := rest, rdata := .reg (s.diag[k.val].setWidth 32) }) ∧
    (s.host = .wait :: rest → step s = .next { s with host := rest, rdata := .reg (s.status.setWidth 32) })

/-- R57, R199, R20 to R29, R139: while a command executes the host reads `IB` and every register that the command does not
write as they are, `FPOS` and `FADDR` as 0 (R28, in a state that meets the invariant). R200, R61 b with the model's free
values (assumption 4): a read of `OB`, or of a register that the command in flight writes, answers some value, about which
nothing is said but that `ROMTYPE` holds what it held or one of the outcomes of R27. 8-bit registers are read zero-extended
(assumption 9). No read changes a register, a buffer or the command in flight. -/
def Obligations.HostReadsWhileBusy : Prop :=
  ∀ (s : State) (rest : List HostEvent), s.engine = .busy →
    (∀ a b, a.toNat < s.cfg.cap.val → memRead s.ib a.toNat = some b → s.host = .readIB a :: rest →
      step s = .next { s with host := rest, rdata := .byte b }) ∧
    (s.host = .readReg 0 :: rest → step s = .next { s with host := rest, rdata := .reg 0#32 }) ∧
    (s.host = .readReg 1 :: rest → step s = .next { s with host := rest, rdata := .reg (s.status.setWidth 32) }) ∧
    (s.host = .readReg 2 :: rest → step s = .next { s with host := rest, rdata := .reg s.len }) ∧
    (s.host = .readReg 3 :: rest → step s = .next { s with host := rest, rdata := .reg s.opa }) ∧
    (∀ i, 17 ≤ i → s.host = .readReg i :: rest → step s = .next { s with host := rest, rdata := .reg 0#32 }) ∧
    (s.Inv → ∀ i, i = 6 ∨ i = 7 → s.host = .readReg i :: rest →
      step s = .next { s with host := rest, rdata := .reg 0#32 }) ∧
    (¬ inFlight s resWriters → s.host = .readReg 4 :: rest →
      step s = .next { s with host := rest, rdata := .reg s.res }) ∧
    (¬ inFlight s detectors → s.host = .readReg 5 :: rest →
      step s = .next { s with host := rest, rdata := .reg (s.romtype.setWidth 32) }) ∧
    (¬ inFlight s detectors → ∀ k : Fin 9, s.host = .readReg (8 + k.val) :: rest →
      step s = .next { s with host := rest, rdata := .reg (s.diag[k.val].setWidth 32) }) ∧
    (inFlight s resWriters → s.host = .readReg 4 :: rest →
      ∃ v, step s = .next { s with host := rest, rdata := .reg v, draws := s.draws + 1 }) ∧
    (inFlight s detectors → s.host = .readReg 5 :: rest → ∃ v ∈ [s.romtype, 0x80#8, 0x81#8, 0x82#8, 0x93#8],
      step s = .next { s with host := rest, rdata := .reg (v.setWidth 32), draws := s.draws + 1 }) ∧
    (inFlight s detectors → ∀ k : Fin 9, s.host = .readReg (8 + k.val) :: rest → ∃ v : Byte,
      step s = .next { s with host := rest, rdata := .reg (v.setWidth 32), draws := s.draws + 1 }) ∧
    (∀ a, a.toNat < s.cfg.cap.val → s.host = .readOB a :: rest →
      ∃ b, step s = .next { s with host := rest, rdata := .byte b, draws := s.draws + 1 })

/-- R38, R50: in IDLE and DONE the host's write of a byte of `IB` is what a later read of that byte gives, and every other
byte and all other state stay. -/
def Obligations.HostLoadsInput : Prop :=
  ∀ (s : State) (rest : List HostEvent) (a : Word) (b : Byte),
    s.engine = .idle ∨ s.engine = .done → a.toNat < s.cfg.cap.val → s.host = .writeIB a b :: rest →
    ∃ ib', step s = .next { s with host := rest, ib := ib' } ∧ memRead ib' a.toNat = some b ∧
      ∀ x, x ≠ a.toNat → memRead ib' x = memRead s.ib x

/-- R50 with the model's choice for an address that does not exist, a fault (assumption 8); R203, R39 a with U2's preferred
treatment of a byte that holds no value, a refusal (assumption 6). -/
def Obligations.HostAccessesThatStop : Prop :=
  ∀ (s : State) (rest : List HostEvent) (a : Word),
    (s.cfg.cap.val ≤ a.toNat →
      (∀ b, s.host = .writeIB a b :: rest → step s = .fault (.noSuchBufferByte a)) ∧
      (s.host = .readIB a :: rest → step s = .fault (.noSuchBufferByte a)) ∧
      (s.host = .readOB a :: rest → step s = .fault (.noSuchBufferByte a))) ∧
    (a.toNat < s.cfg.cap.val →
      (memRead s.ib a.toNat = none → s.host = .readIB a :: rest →
        step s = .refused (.inputByteWithoutValue a.toNat)) ∧
      (s.engine ≠ .busy → memRead s.ob a.toNat = none → s.host = .readOB a :: rest →
        step s = .refused (.outputByteWithoutValue a.toNat)))

/-- R180: in FAULT every host action but reset leaves every register and `OB` as they are; only a write of `IB` changes
`IB`. -/
def Obligations.FaultIsSticky : Prop :=
  ∀ s t : State, s.engine = .fault → (∀ rest, s.host ≠ .reset :: rest) → step s = .next t →
    t.engine = .fault ∧
    t = { s with ib := t.ib, host := t.host, rdata := t.rdata } ∧
    ((∀ a b rest, s.host ≠ .writeIB a b :: rest) → t.ib = s.ib)

/-- R180: in FAULT the host's writes of `CMD`, `LEN` and `OPA`, and of every other index, are ignored, and every register
stays readable. -/
def Obligations.FaultIgnoresRegisterWrites : Prop :=
  ∀ (s : State) (rest : List HostEvent) (i : Nat), s.engine = .fault →
    (∀ v, s.host = .writeReg i v :: rest → step s = .next { s with host := rest }) ∧
    (s.host = .readReg i :: rest → step s = .next { s with host := rest, rdata := .reg (regValue s i) })

/-- R190, R192: reset, in every engine state, puts every register at 0, leaves no byte of either buffer with a value and
keeps the tables. -/
def Obligations.ResetInput : Prop :=
  ∀ (s : State) (rest : List HostEvent), s.host = .reset :: rest →
    step s = .next { s with host := rest, cmd := 0#8, status := 0#8, len := 0#32, opa := 0#32, res := 0#32
                            romtype := 0#8, fpos := 0#32, faddr := 0#32, pos := 0#32, ib := [], ob := []
                            diag := #v[0#8, 0#8, 0#8, 0#8, 0#8, 0#8, 0#8, 0#8, 0#8] }

/-- R42: the reset values the spec states. -/
def Obligations.ResetValues : Prop :=
  State.reset.cmd = 0x00#8 ∧ State.reset.status = 0x00#8 ∧ State.reset.engine = .idle ∧
  State.reset.len = 0#32 ∧ State.reset.opa = 0#32 ∧ State.reset.res = 0#32 ∧ State.reset.romtype = 0x00#8 ∧
  State.reset.fpos = 0#32 ∧ State.reset.faddr = 0#32 ∧ (∀ k : Fin 9, State.reset.diag[k.val] = 0#8) ∧
  State.reset.pos = 0#32 ∧ (∀ a, memRead State.reset.ib a = none) ∧ (∀ a, memRead State.reset.ob a = none)

/-- R191, R187: an engine that is not BUSY, with no host action pending, keeps all its state. -/
def Obligations.IdleEngineKeepsState : Prop :=
  ∀ s : State, s.engine ≠ .busy → s.host = [] → step s = .next s

/-- R53: the two bytes of a word, under both word orders, written and read. -/
def Obligations.WordOrderOfBytes : Prop :=
  ∀ (m : Memory) (a : Nat) (v : BitVec 16),
    memRead (writeUnit .little m a .w16 v) a = some (v.extractLsb' 0 8) ∧
    memRead (writeUnit .little m a .w16 v) (a + 1) = some (v.extractLsb' 8 8) ∧
    memRead (writeUnit .big m a .w16 v) a = some (v.extractLsb' 8 8) ∧
    memRead (writeUnit .big m a .w16 v) (a + 1) = some (v.extractLsb' 0 8) ∧
    (∀ o, readUnit o (writeUnit o m a .w16 v) a .w16 = .ok v) ∧
    (∀ o x, x ≠ a → x ≠ a + 1 → memRead (writeUnit o m a .w16 v) x = memRead m x)

/-! ### Whole-machine rules -/

/-- R57, R158, R37, R23, R24, R25: no command changes `IB`, `LEN`, `OPA`, the configuration or the host's side, and no
command that is neither PDATA nor PADDR changes `RES`. That none changes `CMD` is the model's reading of R21, which says
that the byte is latched (assumption 10). -/
def Obligations.CommandsKeepTheirOperands : Prop :=
  ∀ (i : Instr) (s t : State), exec i s = .next t →
    t.ib = s.ib ∧ t.len = s.len ∧ t.opa = s.opa ∧ t.cmd = s.cmd ∧ t.cfg = s.cfg ∧ t.host = s.host ∧
    t.rdata = s.rdata ∧ t.draws = s.draws ∧
    (i ∈ [Instr.detectD, .detectS, .xform8D, .xform16D, .xform8S, .xform16S, .runD, .runS] → t.res = s.res)

/-- R21, R170, R205: every command ends in DONE or in FAULT; PDATA, PADDR and DETECT end in DONE. A FAULT is a LengthFault of
an odd `LEN`, from XFORM at width 16 or from RUN on an SRX image (R173); a FormatError, from RUN, with `ROMTYPE` Unknown
(R174); or a BoundsFault, from XFORM or RUN, with `FPOS` below `LEN`, `FADDR` its permuted address at the width and direction
of the transform and not below `LEN` (R175), `POS` at that position and no byte of `OB` with a value (R178 d, e; for all of
`OB` assumption 7). -/
def Obligations.CommandsEndInDoneOrFault : Prop :=
  ∀ (i : Instr) (s t : State), exec i s = .next t →
    (t.engine = .done ∧ causeField t.status = causeField s.status) ∨
    (t.engine = .fault ∧
      ((causeField t.status = Cause.lengthFault.code ∧ s.len.toNat % 2 = 1 ∧ t.ob = s.ob ∧
          (i ∈ [Instr.xform16D, .xform16S] ∨ (i ∈ [Instr.runD, .runS] ∧ t.romtype = 0x93#8))) ∨
       (causeField t.status = Cause.formatError.code ∧ i ∈ [Instr.runD, .runS] ∧ t.romtype = 0x80#8 ∧ t.ob = s.ob) ∨
       (causeField t.status = Cause.boundsFault.code ∧ t.fpos < s.len ∧ s.len ≤ t.faddr ∧ t.pos = t.fpos ∧
          (∀ a, memRead t.ob a = none) ∧
          ∃ w d, t.faddr = permuteAddr s.cfg.tab w d t.fpos ∧
            (i = xformOf w d ∨ (i = runOf d ∧ romtypeType t.romtype ≠ .unknown ∧ romtypeWidth t.romtype = w)))))

/-- R52, R154, R157: a command that completes writes no byte of `OB` at or above `LEN`. -/
def Obligations.NoWriteAtOrAboveLength : Prop :=
  ∀ (i : Instr) (s t : State), exec i s = .next t → t.engine = .done →
    ∀ a, s.len.toNat ≤ a → memRead t.ob a = memRead s.ob a

/-- R37, R64: no step, of the engine or of the host, changes the tables, the word order or the capacity. -/
def Obligations.ConfigurationNeverChanges : Prop :=
  ∀ s t : State, step s = .next t → t.cfg = s.cfg

/-- R22, R27, R28, R50, R170, R173 to R175: every step from a state that meets the invariant answers a state that meets
it. -/
def Obligations.StepKeepsInvariant : Prop :=
  ∀ s t : State, s.Inv → step s = .next t → t.Inv

/-- R42: the reset state meets the invariant. -/
def Obligations.ResetMeetsInvariant : Prop := State.reset.Inv
end

