-- ==== Sys2Proof/Laws/State.lean ====
section
/-! SUPPORT. What each field of a state is after each named update, and what the fields of `STATUS` and `ROMTYPE` are after
each write of them. -/

namespace Sys2Proof.Machine

section setEngine
variable (e : EngineState) (s : State)
@[simp] theorem setEngine_cfg : (s.setEngine e).cfg = s.cfg := rfl
@[simp] theorem setEngine_cmd : (s.setEngine e).cmd = s.cmd := rfl
@[simp] theorem setEngine_status : (s.setEngine e).status = setStateField s.status e := rfl
@[simp] theorem setEngine_len : (s.setEngine e).len = s.len := rfl
@[simp] theorem setEngine_opa : (s.setEngine e).opa = s.opa := rfl
@[simp] theorem setEngine_res : (s.setEngine e).res = s.res := rfl
@[simp] theorem setEngine_romtype : (s.setEngine e).romtype = s.romtype := rfl
@[simp] theorem setEngine_fpos : (s.setEngine e).fpos = s.fpos := rfl
@[simp] theorem setEngine_faddr : (s.setEngine e).faddr = s.faddr := rfl
@[simp] theorem setEngine_diag : (s.setEngine e).diag = s.diag := rfl
@[simp] theorem setEngine_pos : (s.setEngine e).pos = s.pos := rfl
@[simp] theorem setEngine_ib : (s.setEngine e).ib = s.ib := rfl
@[simp] theorem setEngine_ob : (s.setEngine e).ob = s.ob := rfl
@[simp] theorem setEngine_host : (s.setEngine e).host = s.host := rfl
@[simp] theorem setEngine_rdata : (s.setEngine e).rdata = s.rdata := rfl
@[simp] theorem setEngine_draws : (s.setEngine e).draws = s.draws := rfl
end setEngine

section complete
variable (s : State)
@[simp] theorem complete_cfg : (complete s).cfg = s.cfg := rfl
@[simp] theorem complete_cmd : (complete s).cmd = s.cmd := rfl
@[simp] theorem complete_status : (complete s).status = setStateField s.status .done := rfl
@[simp] theorem complete_len : (complete s).len = s.len := rfl
@[simp] theorem complete_opa : (complete s).opa = s.opa := rfl
@[simp] theorem complete_res : (complete s).res = s.res := rfl
@[simp] theorem complete_romtype : (complete s).romtype = s.romtype := rfl
@[simp] theorem complete_fpos : (complete s).fpos = s.fpos := rfl
@[simp] theorem complete_faddr : (complete s).faddr = s.faddr := rfl
@[simp] theorem complete_diag : (complete s).diag = s.diag := rfl
@[simp] theorem complete_pos : (complete s).pos = s.pos := rfl
@[simp] theorem complete_ib : (complete s).ib = s.ib := rfl
@[simp] theorem complete_ob : (complete s).ob = s.ob := rfl
@[simp] theorem complete_host : (complete s).host = s.host := rfl
@[simp] theorem complete_rdata : (complete s).rdata = s.rdata := rfl
@[simp] theorem complete_draws : (complete s).draws = s.draws := rfl
end complete

section writeRes
variable (v : Word) (s : State)
@[simp] theorem writeRes_cfg : (writeRes v s).cfg = s.cfg := rfl
@[simp] theorem writeRes_cmd : (writeRes v s).cmd = s.cmd := rfl
@[simp] theorem writeRes_status : (writeRes v s).status = s.status := rfl
@[simp] theorem writeRes_len : (writeRes v s).len = s.len := rfl
@[simp] theorem writeRes_opa : (writeRes v s).opa = s.opa := rfl
@[simp] theorem writeRes_res : (writeRes v s).res = v := rfl
@[simp] theorem writeRes_romtype : (writeRes v s).romtype = s.romtype := rfl
@[simp] theorem writeRes_fpos : (writeRes v s).fpos = s.fpos := rfl
@[simp] theorem writeRes_faddr : (writeRes v s).faddr = s.faddr := rfl
@[simp] theorem writeRes_diag : (writeRes v s).diag = s.diag := rfl
@[simp] theorem writeRes_pos : (writeRes v s).pos = s.pos := rfl
@[simp] theorem writeRes_ib : (writeRes v s).ib = s.ib := rfl
@[simp] theorem writeRes_ob : (writeRes v s).ob = s.ob := rfl
@[simp] theorem writeRes_host : (writeRes v s).host = s.host := rfl
@[simp] theorem writeRes_rdata : (writeRes v s).rdata = s.rdata := rfl
@[simp] theorem writeRes_draws : (writeRes v s).draws = s.draws := rfl
end writeRes

section latchDetection
variable (r : Detection) (s : State)
@[simp] theorem latchDetection_cfg : (latchDetection r s).cfg = s.cfg := rfl
@[simp] theorem latchDetection_cmd : (latchDetection r s).cmd = s.cmd := rfl
@[simp] theorem latchDetection_status : (latchDetection r s).status = s.status := rfl
@[simp] theorem latchDetection_len : (latchDetection r s).len = s.len := rfl
@[simp] theorem latchDetection_opa : (latchDetection r s).opa = s.opa := rfl
@[simp] theorem latchDetection_res : (latchDetection r s).res = s.res := rfl
@[simp] theorem latchDetection_romtype : (latchDetection r s).romtype = romtypeByte r.rom r.width := rfl
@[simp] theorem latchDetection_fpos : (latchDetection r s).fpos = s.fpos := rfl
@[simp] theorem latchDetection_faddr : (latchDetection r s).faddr = s.faddr := rfl
@[simp] theorem latchDetection_diag : (latchDetection r s).diag = diagOf r.header := rfl
@[simp] theorem latchDetection_pos : (latchDetection r s).pos = s.pos := rfl
@[simp] theorem latchDetection_ib : (latchDetection r s).ib = s.ib := rfl
@[simp] theorem latchDetection_ob : (latchDetection r s).ob = s.ob := rfl
@[simp] theorem latchDetection_host : (latchDetection r s).host = s.host := rfl
@[simp] theorem latchDetection_rdata : (latchDetection r s).rdata = s.rdata := rfl
@[simp] theorem latchDetection_draws : (latchDetection r s).draws = s.draws := rfl
end latchDetection

/-- All that raising a fault does (R178). -/
theorem raiseFault_eq (c : Cause) (s : State) :
    raiseFault c s =
      { s with status := setStateField (setCauseField s.status c) .fault
               ob := if c = .boundsFault then memEmpty else s.ob } := by
  cases c <;> rfl

section raiseFault
variable (c : Cause) (s : State)
@[simp] theorem raiseFault_cfg : (raiseFault c s).cfg = s.cfg := by cases c <;> rfl
@[simp] theorem raiseFault_cmd : (raiseFault c s).cmd = s.cmd := by cases c <;> rfl
@[simp] theorem raiseFault_status : (raiseFault c s).status = setStateField (setCauseField s.status c) .fault := by
  cases c <;> rfl
@[simp] theorem raiseFault_len : (raiseFault c s).len = s.len := by cases c <;> rfl
@[simp] theorem raiseFault_opa : (raiseFault c s).opa = s.opa := by cases c <;> rfl
@[simp] theorem raiseFault_res : (raiseFault c s).res = s.res := by cases c <;> rfl
@[simp] theorem raiseFault_romtype : (raiseFault c s).romtype = s.romtype := by cases c <;> rfl
@[simp] theorem raiseFault_fpos : (raiseFault c s).fpos = s.fpos := by cases c <;> rfl
@[simp] theorem raiseFault_faddr : (raiseFault c s).faddr = s.faddr := by cases c <;> rfl
@[simp] theorem raiseFault_diag : (raiseFault c s).diag = s.diag := by cases c <;> rfl
@[simp] theorem raiseFault_pos : (raiseFault c s).pos = s.pos := by cases c <;> rfl
@[simp] theorem raiseFault_ib : (raiseFault c s).ib = s.ib := by cases c <;> rfl
@[simp] theorem raiseFault_ob : (raiseFault c s).ob = if c = .boundsFault then memEmpty else s.ob := by
  cases c <;> rfl
@[simp] theorem raiseFault_host : (raiseFault c s).host = s.host := by cases c <;> rfl
@[simp] theorem raiseFault_rdata : (raiseFault c s).rdata = s.rdata := by cases c <;> rfl
@[simp] theorem raiseFault_draws : (raiseFault c s).draws = s.draws := by cases c <;> rfl
end raiseFault

section resetMachine
variable (s : State)
@[simp] theorem resetMachine_cfg : (resetMachine s).cfg = s.cfg := rfl
@[simp] theorem resetMachine_cmd : (resetMachine s).cmd = 0#8 := rfl
@[simp] theorem resetMachine_status : (resetMachine s).status = 0#8 := rfl
@[simp] theorem resetMachine_len : (resetMachine s).len = 0#32 := rfl
@[simp] theorem resetMachine_opa : (resetMachine s).opa = 0#32 := rfl
@[simp] theorem resetMachine_res : (resetMachine s).res = 0#32 := rfl
@[simp] theorem resetMachine_romtype : (resetMachine s).romtype = 0#8 := rfl
@[simp] theorem resetMachine_fpos : (resetMachine s).fpos = 0#32 := rfl
@[simp] theorem resetMachine_faddr : (resetMachine s).faddr = 0#32 := rfl
@[simp] theorem resetMachine_pos : (resetMachine s).pos = 0#32 := rfl
@[simp] theorem resetMachine_ib : (resetMachine s).ib = [] := rfl
@[simp] theorem resetMachine_ob : (resetMachine s).ob = [] := rfl
@[simp] theorem resetMachine_host : (resetMachine s).host = s.host := rfl
@[simp] theorem resetMachine_rdata : (resetMachine s).rdata = s.rdata := rfl
@[simp] theorem resetMachine_draws : (resetMachine s).draws = s.draws := rfl
end resetMachine

/-- `STATUS.STATE` after a write of it. -/
@[simp] theorem engineState_setStateField (st : Byte) (e : EngineState) : engineState (setStateField st e) = e := by
  have h : ∀ st : Byte, ∀ e ∈ [EngineState.idle, .busy, .done, .fault], engineState (setStateField st e) = e := by
    decide +kernel
  exact h st e (by cases e <;> simp)

/-- A write of `STATUS.STATE` keeps `STATUS.CAUSE`. -/
@[simp] theorem causeField_setStateField (st : Byte) (e : EngineState) :
    causeField (setStateField st e) = causeField st := by
  have h : ∀ st : Byte, ∀ e ∈ [EngineState.idle, .busy, .done, .fault],
      causeField (setStateField st e) = causeField st := by decide +kernel
  exact h st e (by cases e <;> simp)

/-- `STATUS.CAUSE` after a write of it. -/
@[simp] theorem causeField_setCauseField (st : Byte) (c : Cause) : causeField (setCauseField st c) = c.code := by
  have h : ∀ st : Byte, ∀ c ∈ [Cause.illegalCommand, .lengthFault, .formatError, .boundsFault],
      causeField (setCauseField st c) = c.code := by decide +kernel
  exact h st c (by cases c <;> simp)

/-- Bits 3:2 of `STATUS` are kept by both writes. -/
@[simp] theorem statusReserved_setStateField (st : Byte) (e : EngineState) :
    (setStateField st e).extractLsb' 2 2 = st.extractLsb' 2 2 := by
  have h : ∀ st : Byte, ∀ e ∈ [EngineState.idle, .busy, .done, .fault],
      (setStateField st e).extractLsb' 2 2 = st.extractLsb' 2 2 := by decide +kernel
  exact h st e (by cases e <;> simp)

/-- Bits 3:2 of `STATUS` are kept by both writes. -/
@[simp] theorem statusReserved_setCauseField (st : Byte) (c : Cause) :
    (setCauseField st c).extractLsb' 2 2 = st.extractLsb' 2 2 := by
  have h : ∀ st : Byte, ∀ c ∈ [Cause.illegalCommand, .lengthFault, .formatError, .boundsFault],
      (setCauseField st c).extractLsb' 2 2 = st.extractLsb' 2 2 := by decide +kernel
  exact h st c (by cases c <;> simp)

@[simp] theorem engine_setEngine (e : EngineState) (s : State) : (s.setEngine e).engine = e :=
  engineState_setStateField _ _

@[simp] theorem engine_complete (s : State) : (complete s).engine = .done := engineState_setStateField _ _

@[simp] theorem engine_raiseFault (c : Cause) (s : State) : (raiseFault c s).engine = .fault := by
  simp [State.engine]

/-- The fields of `ROMTYPE` after a detection (R130). -/
@[simp] theorem romtypeType_romtypeByte (t : RomType) (w : Width) : romtypeType (romtypeByte t w) = t := by
  cases t <;> cases w <;> rfl

@[simp] theorem romtypeValid_romtypeByte (t : RomType) (w : Width) : romtypeValid (romtypeByte t w) = true := by
  cases t <;> cases w <;> rfl

@[simp] theorem romtypeWidth_romtypeByte (t : RomType) (w : Width) : romtypeWidth (romtypeByte t w) = w := by
  cases t <;> cases w <;> rfl

end Sys2Proof.Machine
end

