-- ==== Sys2Proof/Laws/Memory.lean ====
section
/-! SUPPORT. The laws of a buffer memory: read after write, canonical form, extensionality. -/

namespace Sys2Proof.Machine

@[simp] theorem memRead_nil (a : Nat) : memRead [] a = none := rfl

@[simp] theorem memRead_memEmpty (a : Nat) : memRead memEmpty a = none := rfl

theorem memRead_cons (k : Nat) (b : Byte) (m : Memory) (a : Nat) :
    memRead ((k, b) :: m) a = if k = a then some b else memRead m a := rfl

/-- One read after one write. -/
theorem memRead_memWrite (m : Memory) (a : Nat) (b : Byte) (x : Nat) :
    memRead (memWrite m a b) x = if a = x then some b else memRead m x := by
  induction m with
  | nil => simp [memWrite, memRead_cons]
  | cons c m ih =>
    obtain ⟨k, v⟩ := c
    by_cases h1 : a < k
    · simp [memWrite, h1, memRead_cons]
    · by_cases h2 : a = k
      · subst h2
        simp only [memWrite, h1, if_false, if_true, memRead_cons]
        split <;> rfl
      · simp only [memWrite, h1, h2, if_false, memRead_cons, ih]
        by_cases h3 : k = x
        · subst h3; simp [h2]
        · simp [h3]

@[simp] theorem memRead_memWrite_same (m : Memory) (a : Nat) (b : Byte) :
    memRead (memWrite m a b) a = some b := by simp [memRead_memWrite]

theorem memRead_memWrite_other (m : Memory) {a x : Nat} (b : Byte) (h : a ≠ x) :
    memRead (memWrite m a b) x = memRead m x := by simp [memRead_memWrite, h]

@[simp] theorem wf_nil : Memory.wf [] = true := rfl

@[simp] theorem wf_memEmpty : Memory.wf memEmpty = true := rfl

theorem wf_cons (k : Nat) (b : Byte) (m : Memory) :
    Memory.wf ((k, b) :: m) = true ↔ (∀ c ∈ m, k < c.1) ∧ Memory.wf m = true := by
  simp [Memory.wf, List.pairwise_cons]

/-- The addresses listed after a write are the address written and those listed before. -/
theorem mem_memWrite (m : Memory) (a : Nat) (b : Byte) (c : Host.Cell) (h : c ∈ memWrite m a b) :
    c = (a, b) ∨ c ∈ m := by
  induction m with
  | nil => simpa [memWrite] using h
  | cons e m ih =>
    obtain ⟨k, v⟩ := e
    simp only [memWrite] at h
    split at h
    · simp at h ⊢; tauto
    · split at h
      · simp at h ⊢; tauto
      · simp only [List.mem_cons] at h ⊢
        rcases h with h | h
        · exact .inr (.inl h)
        · rcases ih h with h | h
          · exact .inl h
          · exact .inr (.inr h)

/-- Every write keeps the canonical form. -/
theorem wf_memWrite (m : Memory) (a : Nat) (b : Byte) (h : Memory.wf m = true) :
    Memory.wf (memWrite m a b) = true := by
  induction m with
  | nil => simp [memWrite, wf_cons]
  | cons e m ih =>
    obtain ⟨k, v⟩ := e
    have hk := (wf_cons k v m).1 h
    simp only [memWrite]
    split
    · rename_i hlt
      refine (wf_cons _ _ _).2 ⟨?_, h⟩
      intro c hc
      rcases List.mem_cons.1 hc with rfl | hc
      · exact hlt
      · exact lt_trans hlt (hk.1 c hc)
    · split
      · rename_i _ heq
        subst heq
        exact (wf_cons _ _ _).2 hk
      · refine (wf_cons _ _ _).2 ⟨?_, ih hk.2⟩
        intro c hc
        rcases mem_memWrite m a b c hc with rfl | hc
        · show k < a; omega
        · exact hk.1 c hc

/-- A byte below every listed address holds no value. -/
theorem memRead_eq_none_of_lt (m : Memory) (a : Nat) (h : ∀ c ∈ m, a < c.1) : memRead m a = none := by
  induction m with
  | nil => rfl
  | cons e m ih =>
    obtain ⟨k, v⟩ := e
    have := h (k, v) (by simp)
    rw [memRead_cons, if_neg (by simp at this; omega)]
    exact ih (fun c hc => h c (by simp [hc]))

/-- Two memories in canonical form that read alike are equal. -/
theorem memory_ext : ∀ (m n : Memory), Memory.wf m = true → Memory.wf n = true →
    (∀ a, memRead m a = memRead n a) → m = n
  | [], [], _, _, _ => rfl
  | [], (k, v) :: n, _, _, h => by have := h k; simp [memRead_cons] at this
  | (k, v) :: m, [], _, _, h => by have := h k; simp [memRead_cons] at this
  | (k, v) :: m, (l, u) :: n, hm, hn, h => by
    obtain ⟨hm1, hm2⟩ := (wf_cons _ _ _).1 hm
    obtain ⟨hn1, hn2⟩ := (wf_cons _ _ _).1 hn
    have hkl : k = l := by
      rcases lt_trichotomy k l with hlt | heq | hgt
      · have h1 := h k
        rw [memRead_cons, if_pos rfl, memRead_cons, if_neg (by omega),
          memRead_eq_none_of_lt n k (fun c hc => lt_trans hlt (hn1 c hc))] at h1
        cases h1
      · exact heq
      · have h1 := h l
        rw [memRead_cons, if_neg (by omega), memRead_cons, if_pos rfl,
          memRead_eq_none_of_lt m l (fun c hc => lt_trans hgt (hm1 c hc))] at h1
        cases h1
    subst hkl
    have hvu : v = u := by have h1 := h k; simpa [memRead_cons] using h1
    subst hvu
    rw [memory_ext m n hm2 hn2 (fun a => ?_)]
    by_cases ha : k = a
    · subst ha
      rw [memRead_eq_none_of_lt m k hm1, memRead_eq_none_of_lt n k hn1]
    · have h1 := h a
      rwa [memRead_cons, if_neg ha, memRead_cons, if_neg ha] at h1

end Sys2Proof.Machine
end

