-- ==== Sys2Proof/Laws/Permute.lean ====
section
/-! SUPPORT. What the permutation of a table does to each bit (spec/30_encoding.md R70), and what `WF(TAB)` gives for one key
(spec/10_state.md R36). -/

namespace Sys2Proof.Machine

/-- A bit of the moved part: the pair that ends there, and its source bit. -/
theorem moveBits_getLsbD {n : Nat} (v : BitVec n) (ps : List Nat) (k j : Nat) :
    (moveBits v ps k).getLsbD j = true ↔ j < n ∧ ∃ i, ps[i]? = some j ∧ v.getLsbD (k + i) = true := by
  induction ps generalizing k with
  | nil => simp [moveBits]
  | cons p ps ih =>
    simp only [moveBits, BitVec.getLsbD_or, Bool.or_eq_true, ih (k + 1)]
    constructor
    · rintro (h | ⟨hj, i, hi, hv⟩)
      · simp only [BitVec.getLsbD_shiftLeft, BitVec.getLsbD_setWidth, BitVec.getLsbD_ofBool, Bool.and_eq_true,
          decide_eq_true_eq, Bool.not_eq_true', decide_eq_false_iff_not, not_lt] at h
        obtain ⟨⟨hj, hp⟩, _, h0, hv⟩ := h
        exact ⟨hj, 0, by simp; omega, by simpa using hv⟩
      · exact ⟨hj, i + 1, by simpa using hi, by rw [← hv]; congr 1; omega⟩
    · rintro ⟨hj, i, hi, hv⟩
      cases i with
      | zero =>
        left
        simp at hi hv
        subst hi
        simp [hj, hv]
      | succ i =>
        right
        exact ⟨hj, i, by simpa using hi, by rw [← hv]; congr 1; omega⟩

@[simp] theorem high_getLsbD (S n j : Nat) : (high S n).getLsbD j = (decide (j < n) && decide (S ≤ j)) := by
  simp only [high, BitVec.getLsbD_shiftLeft, BitVec.getLsbD_allOnes]
  by_cases h1 : j < n <;> by_cases h2 : S ≤ j <;> (simp [h1, h2]; try omega)

/-- Every destination of a bijective table lies below its span. -/
theorem bijective_lt {t : PairTable} (h : t.bijective = true) {k p : Nat} (hk : t.pi[k]? = some p) : p < t.span := by
  simp only [PairTable.bijective, Bool.and_eq_true, List.all_eq_true, decide_eq_true_eq] at h
  exact h.1 p (List.mem_of_getElem? hk)

/-- No destination of a bijective table occurs twice. -/
theorem bijective_inj {t : PairTable} (h : t.bijective = true) {k l p : Nat} (hk : t.pi[k]? = some p)
    (hl : t.pi[l]? = some p) : k = l := by
  simp only [PairTable.bijective, Bool.and_eq_true, decide_eq_true_eq] at h
  obtain ⟨hk1, hk2⟩ := List.getElem?_eq_some_iff.1 hk
  obtain ⟨hl1, hl2⟩ := List.getElem?_eq_some_iff.1 hl
  exact (List.Nodup.getElem_inj_iff h.2).1 (hk2.trans hl2.symm)

/-- Every position below the span of a bijective table is a destination. -/
theorem bijective_surj {t : PairTable} (h : t.bijective = true) {p : Nat} (hp : p < t.span) :
    ∃ k, k < t.span ∧ t.pi[k]? = some p := by
  have h' := h
  simp only [PairTable.bijective, Bool.and_eq_true, List.all_eq_true, decide_eq_true_eq] at h'
  have hsub : t.pi ⊆ List.range t.span := fun x hx => List.mem_range.2 (h'.1 x hx)
  have hperm : t.pi.Perm (List.range t.span) :=
    (h'.2.subperm hsub).perm_of_length_le (by simp [PairTable.span])
  have hmem : p ∈ t.pi := hperm.mem_iff.2 (List.mem_range.2 hp)
  obtain ⟨k, hk, hk2⟩ := List.mem_iff_getElem.1 hmem
  exact ⟨k, hk, List.getElem?_eq_some_iff.2 ⟨hk, hk2⟩⟩

/-- Output bit `pi(k)` is input bit `k` (R101, R111). -/
theorem applyTable_dest {n : Nat} {t : PairTable} (hb : t.bijective = true) (hn : t.span ≤ n) (v : BitVec n)
    {k p : Nat} (hk : t.pi[k]? = some p) : (applyTable t v).getLsbD p = v.getLsbD k := by
  have hp := bijective_lt hb hk
  rw [Bool.eq_iff_iff]
  simp only [applyTable, BitVec.getLsbD_or, BitVec.getLsbD_and, high_getLsbD, Bool.or_eq_true, Bool.and_eq_true,
    decide_eq_true_eq, moveBits_getLsbD, Nat.zero_add]
  constructor
  · rintro (⟨_, i, hi, hv⟩ | h)
    · rwa [← bijective_inj hb hi hk]
    · omega
  · intro hv
    exact .inl ⟨by omega, k, hk, hv⟩

/-- Output bit `k` is input bit `k` from the span up (R101, R111). -/
theorem applyTable_high {n : Nat} {t : PairTable} (hb : t.bijective = true) (v : BitVec n) {k : Nat}
    (hk : t.span ≤ k) : (applyTable t v).getLsbD k = v.getLsbD k := by
  by_cases hkn : k < n
  · rw [Bool.eq_iff_iff]
    simp only [applyTable, BitVec.getLsbD_or, BitVec.getLsbD_and, high_getLsbD, Bool.or_eq_true, Bool.and_eq_true,
      decide_eq_true_eq, moveBits_getLsbD, Nat.zero_add]
    constructor
    · rintro (⟨_, i, hi, _⟩ | h)
      · have := bijective_lt hb hi; omega
      · exact h.1
    · intro h; exact .inr ⟨h, hkn, hk⟩
  · rw [BitVec.getLsbD_of_ge _ _ (by omega), BitVec.getLsbD_of_ge _ _ (by omega)]

/-- A value is fixed by what stands at each destination and from the span up. -/
theorem applyTable_unique {n : Nat} {t : PairTable} (hb : t.bijective = true) (hn : t.span ≤ n) (v u : BitVec n)
    (hd : ∀ k p, t.pi[k]? = some p → u.getLsbD p = v.getLsbD k)
    (hh : ∀ k, t.span ≤ k → k < n → u.getLsbD k = v.getLsbD k) : u = applyTable t v := by
  apply BitVec.eq_of_getLsbD_eq
  intro j hj
  by_cases hs : j < t.span
  · obtain ⟨k, _, hk⟩ := bijective_surj hb hs
    rw [hd k j hk, applyTable_dest hb hn v hk]
  · rw [hh j (by omega) hj, applyTable_high hb v (by omega)]

/-- What `WF(TAB)` says of one width and direction (R36). -/
theorem wf_key {t : TableSet} (h : t.wf = true) (w : Width) (d : Dir) :
    (t.data w d).span ≤ w.bits ∧ (t.data w d).bijective = true ∧ (t.addr w d).span = addrSpan w ∧
      (t.addr w d).bijective = true ∧ (t.data w d).undoneBy (t.data w d.inv) = true ∧
      (t.addr w d).undoneBy (t.addr w d.inv) = true := by
  simp only [TableSet.wf, Bool.and_eq_true] at h
  obtain ⟨⟨⟨h1, h2⟩, h3⟩, h4⟩ := h
  have key : t.wfKey w d = true := by cases w <;> cases d <;> assumption
  simp only [TableSet.wfKey, Bool.and_eq_true, decide_eq_true_eq, beq_iff_eq] at key
  obtain ⟨⟨⟨⟨⟨⟨a, b⟩, c⟩, e⟩, f⟩, g⟩, _⟩ := key
  exact ⟨a, b, c, e, f, g⟩

/-- The fixed points of the width-16 address tables (R33). -/
theorem wf_fixes16 {t : TableSet} (h : t.wf = true) (d : Dir) :
    (t.addr .w16 d).pi[0]? = some 0 ∧ (t.addr .w16 d).pi[2]? = some 2 ∧ (t.addr .w16 d).pi[3]? = some 3 ∧
      (t.addr .w16 d).pi[14]? = some 14 := by
  simp only [TableSet.wf, Bool.and_eq_true] at h
  obtain ⟨⟨⟨h1, h2⟩, h3⟩, h4⟩ := h
  have key : t.wfKey .w16 d = true := by cases d <;> assumption
  simp only [TableSet.wfKey, Bool.and_eq_true, PairTable.fixes, beq_iff_eq] at key
  obtain ⟨_, ⟨⟨h0, h2⟩, h3⟩, h14⟩ := key
  exact ⟨h0, h2, h3, h14⟩

/-- Where one table sends a bit, its inverse sends it back (R34). -/
theorem undoneBy_back {t u : PairTable} (h : t.undoneBy u = true) {k p : Nat} (hk : t.pi[k]? = some p) :
    u.pi[p]? = some k ∧ t.span = u.span := by
  simp only [PairTable.undoneBy, Bool.and_eq_true, List.all_eq_true, beq_iff_eq, List.mem_range] at h
  obtain ⟨hs, h⟩ := h
  have hlt : k < t.span := (List.getElem?_eq_some_iff.1 hk).1
  have := h k hlt
  rw [hk] at this
  exact ⟨by simpa using this, hs⟩

end Sys2Proof.Machine
end

