-- ==== Sys2Proof/Laws/Units.lean ====
section
/-! SUPPORT. What one access unit reads and writes, byte by byte (spec/20_memory.md R53), and where the address permutation
sends units (spec/41_permute_address.md R115 to R118). -/

namespace Sys2Proof.Machine

/-- Byte `j` of the unit `v`, counted from the lowest address. -/
def unitByte (o : WordOrder) (w : Width) (v : BitVec w.bits) (j : Nat) : Byte :=
  match w, v with
  | .w8, v => v
  | .w16, v => wordByte o (decide (j = 1)) v

/-- The two bytes of a word make the word (R53). -/
@[simp] theorem joinWord_wordByte (o : WordOrder) (v : BitVec 16) :
    joinWord o (wordByte o false v) (wordByte o true v) = v := by
  cases o <;>
  · apply BitVec.eq_of_getLsbD_eq
    intro i hi
    simp only [joinWord, wordByte, BitVec.getLsbD_append, BitVec.getLsbD_extractLsb']
    by_cases h : i < 8
    · simp [h]
    · simp [h, show i - 8 < 8 by omega, show 8 + (i - 8) = i by omega]

/-- The bytes of a word that is made of two bytes (R53). -/
@[simp] theorem wordByte_joinWord (o : WordOrder) (odd : Bool) (b0 b1 : Byte) :
    wordByte o odd (joinWord o b0 b1) = if odd then b1 else b0 := by
  cases o <;> cases odd <;>
  · apply BitVec.eq_of_getLsbD_eq
    intro i hi
    simp only [joinWord, wordByte, BitVec.getLsbD_extractLsb', hi]
    rw [BitVec.getLsbD_append]
    simp [hi]

/-- A unit is read exactly when all its bytes hold a value, and then it is the unit of these bytes (R53). -/
theorem readUnit_ok_iff (o : WordOrder) (m : Memory) (a : Nat) (w : Width) (v : BitVec w.bits) :
    readUnit o m a w = .ok v ↔ ∀ j < w.bytes, memRead m (a + j) = some (unitByte o w v j) := by
  cases w with
  | w8 =>
    simp only [readUnit, Width.bytes]
    constructor
    · intro h j hj
      obtain rfl : j = 0 := by omega
      revert h
      cases memRead m a <;> simp [unitByte]
    · intro h
      have := h 0 (by omega)
      simp only [Nat.add_zero, unitByte] at this
      rw [this]
  | w16 =>
    simp only [readUnit, Width.bytes]
    constructor
    · intro h
      revert h
      cases h0 : memRead m a <;> cases h1 : memRead m (a + 1) <;> simp only [reduceCtorEq, false_imp_iff]
      intro h
      obtain rfl := Except.ok.inj h
      intro j hj
      have hj' : j = 0 ∨ j = 1 := by omega
      rcases hj' with rfl | rfl
      · simp [unitByte, h0]
      · simp [unitByte, h1]
    · intro h
      have h0 := h 0 (by omega)
      have h1 := h 1 (by omega)
      simp only [Nat.add_zero, unitByte] at h0 h1
      rw [h0, h1]
      simp

/-- A read of a unit that fails names a byte of the unit that holds no value. -/
theorem readUnit_error {o : WordOrder} {m : Memory} {a : Nat} {w : Width} {e : Nat}
    (h : readUnit o m a w = .error e) : ∃ j < w.bytes, e = a + j ∧ memRead m e = none := by
  cases w with
  | w8 =>
    revert h
    simp only [readUnit]
    cases hm : memRead m a <;> simp only [reduceCtorEq, false_imp_iff, Except.error.injEq]
    rintro rfl
    exact ⟨0, by decide, rfl, hm⟩
  | w16 =>
    revert h
    simp only [readUnit]
    cases h0 : memRead m a <;> cases h1 : memRead m (a + 1) <;>
      simp only [reduceCtorEq, false_imp_iff, Except.error.injEq]
    · rintro rfl; exact ⟨0, by decide, rfl, h0⟩
    · rintro rfl; exact ⟨0, by decide, rfl, h0⟩
    · rintro rfl; exact ⟨1, by decide, rfl, h1⟩

/-- A unit all of whose bytes hold a value is read. -/
theorem readUnit_of_isSome {o : WordOrder} {m : Memory} {a : Nat} {w : Width}
    (h : ∀ j < w.bytes, (memRead m (a + j)).isSome = true) : ∃ v, readUnit o m a w = .ok v := by
  cases hr : readUnit o m a w with
  | ok v => exact ⟨v, rfl⟩
  | error e =>
    obtain ⟨j, hj, rfl, hn⟩ := readUnit_error hr
    have := h j hj
    rw [hn] at this
    cases this

/-- One byte after the write of a unit (R53). -/
theorem memRead_writeUnit (o : WordOrder) (m : Memory) (a : Nat) (w : Width) (v : BitVec w.bits) (x : Nat) :
    memRead (writeUnit o m a w v) x =
      if a ≤ x ∧ x < a + w.bytes then some (unitByte o w v (x - a)) else memRead m x := by
  cases w with
  | w8 =>
    simp only [writeUnit, memRead_memWrite, Width.bytes]
    by_cases h : a = x
    · subst h; simp [unitByte]
    · rw [if_neg h, if_neg (by omega)]
  | w16 =>
    simp only [writeUnit, memRead_memWrite, Width.bytes]
    by_cases h1 : a + 1 = x
    · subst h1; simp [unitByte]
    · by_cases h : a = x
      · subst h; simp [unitByte]
      · rw [if_neg h1, if_neg h, if_neg (by omega)]

/-- The write of a unit keeps the canonical form. -/
theorem wf_writeUnit (o : WordOrder) (m : Memory) (a : Nat) (w : Width) (v : BitVec w.bits)
    (h : Memory.wf m = true) : Memory.wf (writeUnit o m a w v) = true := by
  cases w with
  | w8 => exact wf_memWrite _ _ _ h
  | w16 => exact wf_memWrite _ _ _ (wf_memWrite _ _ _ h)

/-- The addresses listed after the write of a unit. -/
theorem mem_writeUnit {o : WordOrder} {m : Memory} {a : Nat} {w : Width} {v : BitVec w.bits} {c : Host.Cell}
    (h : c ∈ writeUnit o m a w v) : (a ≤ c.1 ∧ c.1 < a + w.bytes) ∨ c ∈ m := by
  cases w with
  | w8 =>
    rcases mem_memWrite _ _ _ _ h with rfl | h
    · left; simp [Width.bytes]
    · exact .inr h
  | w16 =>
    rcases mem_memWrite _ _ _ _ h with rfl | h
    · left; simp [Width.bytes]
    · rcases mem_memWrite _ _ _ _ h with rfl | h
      · left; simp [Width.bytes]
      · exact .inr h

/-- The address permutation of a configuration is injective (R116). -/
theorem permuteAddr_inj (c : Config) (w : Width) (d : Dir) {a b : Word}
    (h : permuteAddr c.tab w d a = permuteAddr c.tab w d b) : a = b := by
  obtain ⟨_, _, hs, hb, _, _⟩ := wf_key c.tabWf w d
  have hn : (c.tab.addr w d).span ≤ 32 := by rw [hs]; cases w <;> decide
  apply BitVec.eq_of_getLsbD_eq
  intro k hk
  have h' : applyTable (c.tab.addr w d) a = applyTable (c.tab.addr w d) b := h
  by_cases hlt : k < (c.tab.addr w d).span
  · have hk' : (c.tab.addr w d).pi[k]? = some ((c.tab.addr w d).pi[k]'hlt) := List.getElem?_eq_getElem hlt
    rw [← applyTable_dest hb hn a hk', ← applyTable_dest hb hn b hk', h']
  · rw [← applyTable_high hb a (by omega), ← applyTable_high hb b (by omega), h']

/-- At width 16 bit 0 of an address keeps its place (R113). -/
theorem permuteAddr16_bit0 (c : Config) (d : Dir) (a : Word) :
    (permuteAddr c.tab .w16 d a).getLsbD 0 = a.getLsbD 0 := by
  obtain ⟨_, _, hs, hb, _, _⟩ := wf_key c.tabWf .w16 d
  exact applyTable_dest hb (by rw [hs]; decide) a (wf_fixes16 c.tabWf d).1

/-- A permuted address is aligned to the access size when the address is (R54, R117). -/
theorem permuteAddr_aligned (c : Config) (w : Width) (d : Dir) {a : Word} (h : a.toNat % w.bytes = 0) :
    (permuteAddr c.tab w d a).toNat % w.bytes = 0 := by
  cases w with
  | w8 => exact Nat.mod_one _
  | w16 =>
    have h0 := permuteAddr16_bit0 c d a
    simp only [BitVec.getLsbD, Nat.testBit_zero] at h0
    simp only [Width.bytes] at h ⊢
    rw [h] at h0
    simpa using h0

end Sys2Proof.Machine
end

