-- ==== Sys2Proof/Laws/Xform.lean ====
section
/-! SUPPORT. What one visit and the loop of the transform can do (spec/43_rom_transform.md R150, R154, R157), said once. -/

namespace Sys2Proof.Machine

/-- A visit writes exactly when the permuted address is below `LEN` and the unit is readable (R150). -/
theorem visit_wrote_iff (c : Config) (w : Width) (d : Dir) (len : Word) (ib : Memory) (i : Word) (ob ob' : Memory) :
    visit c w d len ib i ob = .wrote ob' ↔
      permuteAddr c.tab w d i < len ∧ ∃ v, readUnit c.wordOrder ib i.toNat w = .ok v ∧
        ob' = writeUnit c.wordOrder ob (permuteAddr c.tab w d i).toNat w (permuteData c.tab w d v) := by
  simp only [visit]
  by_cases h : len ≤ permuteAddr c.tab w d i
  · simp [h, BitVec.not_lt.2 h]
  · rw [if_neg h]
    cases hr : readUnit c.wordOrder ib i.toNat w with
    | error e => simp
    | ok v => simp [BitVec.not_le.1 h, eq_comm]

/-- A visit is out of bounds exactly when the permuted address is not below `LEN`, and reports it (R154). -/
theorem visit_outOfBounds_iff (c : Config) (w : Width) (d : Dir) (len : Word) (ib : Memory) (i : Word) (ob : Memory)
    (a : Word) :
    visit c w d len ib i ob = .outOfBounds a ↔ len ≤ permuteAddr c.tab w d i ∧ a = permuteAddr c.tab w d i := by
  simp only [visit]
  by_cases h : len ≤ permuteAddr c.tab w d i
  · simp [h, eq_comm]
  · rw [if_neg h]
    cases hr : readUnit c.wordOrder ib i.toNat w <;> simp [h]

/-- A visit meets a byte without a value exactly when the bound holds and the unit is not readable. -/
theorem visit_unwritten_iff (c : Config) (w : Width) (d : Dir) (len : Word) (ib : Memory) (i : Word) (ob : Memory)
    (e : Nat) :
    visit c w d len ib i ob = .unwritten e ↔
      permuteAddr c.tab w d i < len ∧ readUnit c.wordOrder ib i.toNat w = .error e := by
  simp only [visit]
  by_cases h : len ≤ permuteAddr c.tab w d i
  · simp [h, BitVec.not_lt.2 h]
  · rw [if_neg h]
    cases hr : readUnit c.wordOrder ib i.toNat w <;> simp [BitVec.not_le.1 h]

/-- `x` is a byte of the unit at the permuted address of position `m`. -/
abbrev inUnit (tab : TableSet) (w : Width) (d : Dir) (m x : Nat) : Prop :=
  permutedPos tab w d m ≤ x ∧ x < permutedPos tab w d m + w.bytes

theorem toNat_ofNat_lt {m : Nat} (h : m < 2 ^ 32) : (BitVec.ofNat 32 m).toNat = m := by
  rw [BitVec.toNat_ofNat, Nat.mod_eq_of_lt h]

/-- The permuted address of an aligned position is aligned. -/
theorem permutedPos_aligned (c : Config) (w : Width) (d : Dir) {m : Nat} (hm : m < 2 ^ 32) (h : m % w.bytes = 0) :
    permutedPos c.tab w d m % w.bytes = 0 :=
  permuteAddr_aligned c w d (by rwa [toNat_ofNat_lt hm])

theorem permutedPos_inj (c : Config) (w : Width) (d : Dir) {m n : Nat} (hm : m < 2 ^ 32) (hn : n < 2 ^ 32)
    (h : permutedPos c.tab w d m = permutedPos c.tab w d n) : m = n := by
  have := congrArg BitVec.toNat (permuteAddr_inj c w d (BitVec.eq_of_toNat_eq h))
  rwa [toNat_ofNat_lt hm, toNat_ofNat_lt hn] at this

/-- The units of two aligned positions share a byte only when the positions are the same (R66). -/
theorem inUnit_unique (c : Config) (w : Width) (d : Dir) {m n x : Nat} (hm : m < 2 ^ 32) (hn : n < 2 ^ 32)
    (hma : m % w.bytes = 0) (hna : n % w.bytes = 0) (h1 : inUnit c.tab w d m x) (h2 : inUnit c.tab w d n x) :
    m = n := by
  have a1 := permutedPos_aligned c w d hm hma
  have a2 := permutedPos_aligned c w d hn hna
  refine permutedPos_inj c w d hm hn ?_
  cases w <;> simp only [inUnit, Width.bytes] at * <;> omega

/-- How the loop has written when it completes `k` iterations from position `n`: every position was in bounds and
readable, its permuted unit stands at its permuted address, no other byte was touched. -/
structure LoopWrote (c : Config) (w : Width) (d : Dir) (len : Word) (ib : Memory) (n k : Nat) (ob ob' : Memory) :
    Prop where
  bounded : ∀ m, n ≤ m → m < n + k * w.bytes → m % w.bytes = 0 → permutedPos c.tab w d m < len.toNat
  readable : ∀ m, n ≤ m → m < n + k * w.bytes → m % w.bytes = 0 → ∃ v, readUnit c.wordOrder ib m w = .ok v
  placed : ∀ m, n ≤ m → m < n + k * w.bytes → m % w.bytes = 0 → ∀ v, readUnit c.wordOrder ib m w = .ok v →
    readUnit c.wordOrder ob' (permutedPos c.tab w d m) w = .ok (permuteData c.tab w d v)
  untouched : ∀ x, (∀ m, n ≤ m → m < n + k * w.bytes → m % w.bytes = 0 → ¬ inUnit c.tab w d m x) →
    memRead ob' x = memRead ob x
  keepsWf : Memory.wf ob = true → Memory.wf ob' = true
  listed : ∀ e ∈ ob', e ∈ ob ∨
    ∃ m, n ≤ m ∧ m < n + k * w.bytes ∧ m % w.bytes = 0 ∧ inUnit c.tab w d m e.1

/-- The position after `n`. -/
theorem ofNat_add_bytes (w : Width) (n : Nat) :
    BitVec.ofNat 32 n + BitVec.ofNat 32 w.bytes = BitVec.ofNat 32 (n + w.bytes) := by
  rw [BitVec.ofNat_add]

/-- Everything `k` iterations of the loop from an aligned position `n` can do (R150, R154): complete, having written all
the units; or stop at the first position out of bounds; or stop at the first position that is not readable. -/
theorem xformLoop_cases (c : Config) (w : Width) (d : Dir) (len : Word) (ib : Memory) :
    ∀ (k n : Nat) (ob : Memory), n + k * w.bytes < 2 ^ 32 → n % w.bytes = 0 →
      (∃ ob', xformLoop c w d len ib k (BitVec.ofNat 32 n) ob
          = .completed (BitVec.ofNat 32 (n + k * w.bytes)) ob' ∧ LoopWrote c w d len ib n k ob ob') ∨
      (∃ m, n ≤ m ∧ m < n + k * w.bytes ∧ m % w.bytes = 0 ∧
        xformLoop c w d len ib k (BitVec.ofNat 32 n) ob
          = .outOfBounds (BitVec.ofNat 32 m) (permuteAddr c.tab w d (BitVec.ofNat 32 m)) ∧
        len.toNat ≤ permutedPos c.tab w d m ∧
        ∀ l, n ≤ l → l < m → l % w.bytes = 0 →
          permutedPos c.tab w d l < len.toNat ∧ ∃ v, readUnit c.wordOrder ib l w = .ok v) ∨
      (∃ m e, n ≤ m ∧ m < n + k * w.bytes ∧ m % w.bytes = 0 ∧
        xformLoop c w d len ib k (BitVec.ofNat 32 n) ob = .unwritten e ∧
        readUnit c.wordOrder ib m w = .error e ∧ permutedPos c.tab w d m < len.toNat ∧
        ∀ l, n ≤ l → l < m → l % w.bytes = 0 →
          permutedPos c.tab w d l < len.toNat ∧ ∃ v, readUnit c.wordOrder ib l w = .ok v)
  | 0, n, ob, _, _ => by
    left
    refine ⟨ob, by simp [xformLoop], ?_⟩
    constructor
    · intro m h1 h2; omega
    · intro m h1 h2; omega
    · intro m h1 h2; omega
    · intro x _; rfl
    · exact id
    · intro e he; exact .inl he
  | k + 1, n, ob, hk, hn => by
    have hb : 1 ≤ w.bytes := by cases w <;> decide
    have hn32 : n < 2 ^ 32 := by omega
    have hsucc : n + (k + 1) * w.bytes = n + w.bytes + k * w.bytes := by rw [Nat.succ_mul]; omega
    have hnext : (n + w.bytes) % w.bytes = 0 := by rw [Nat.add_mod_right]; exact hn
    have later : ∀ m, n ≤ m → m % w.bytes = 0 → m = n ∨ n + w.bytes ≤ m := by
      intro m h1 h2
      cases w <;> simp only [Width.bytes] at * <;> omega
    simp only [xformLoop]
    cases hv : visit c w d len ib (BitVec.ofNat 32 n) ob with
    | outOfBounds a =>
      obtain ⟨hle, rfl⟩ := (visit_outOfBounds_iff ..).1 hv
      right; left
      refine ⟨n, le_rfl, by omega, hn, rfl, BitVec.le_def.1 hle, ?_⟩
      intro l h1 h2; omega
    | unwritten e =>
      obtain ⟨hlt, hr⟩ := (visit_unwritten_iff ..).1 hv
      rw [toNat_ofNat_lt hn32] at hr
      right; right
      refine ⟨n, e, le_rfl, by omega, hn, rfl, hr, BitVec.lt_def.1 hlt, ?_⟩
      intro l h1 h2; omega
    | wrote ob1 =>
      obtain ⟨hlt, v, hr, rfl⟩ := (visit_wrote_iff ..).1 hv
      rw [toNat_ofNat_lt hn32] at hr
      have hhere : permutedPos c.tab w d n < len.toNat ∧ ∃ v, readUnit c.wordOrder ib n w = .ok v :=
        ⟨BitVec.lt_def.1 hlt, v, hr⟩
      simp only [ofNat_add_bytes]
      rcases xformLoop_cases c w d len ib k (n + w.bytes) _ (by omega) hnext with
        ⟨ob', he, hw⟩ | ⟨m, h1, h2, h3, he, h4, h5⟩ | ⟨m, e, h1, h2, h3, he, h4, h5, h6⟩
      · left
        refine ⟨ob', by rw [he, hsucc], ?_⟩
        constructor
        · intro m h1 h2 h3
          rcases later m h1 h3 with rfl | h
          · exact hhere.1
          · exact hw.bounded m h (by omega) h3
        · intro m h1 h2 h3
          rcases later m h1 h3 with rfl | h
          · exact hhere.2
          · exact hw.readable m h (by omega) h3
        · intro m h1 h2 h3 u hu
          rcases later m h1 h3 with rfl | h
          · rw [hr] at hu
            obtain rfl := Except.ok.inj hu
            rw [readUnit_ok_iff]
            intro j hj
            rw [hw.untouched]
            · have hp : (permuteAddr c.tab w d (BitVec.ofNat 32 m)).toNat = permutedPos c.tab w d m := rfl
              rw [memRead_writeUnit, if_pos ⟨by omega, by omega⟩, hp, Nat.add_sub_cancel_left]
            · intro l hl1 hl2 hl3 hin
              have := inUnit_unique c w d (by omega) hn32 hl3 h3 hin (n := m) ⟨by omega, by omega⟩
              omega
          · exact hw.placed m h (by omega) h3 u hu
        · intro x hx
          rw [hw.untouched x (fun m h1 h2 h3 => hx m (by omega) (by omega) h3), memRead_writeUnit, if_neg]
          exact hx n le_rfl (by omega) hn
        · intro hwf
          exact hw.keepsWf (wf_writeUnit _ _ _ _ _ hwf)
        · intro e hmem
          rcases hw.listed e hmem with h | ⟨m, h1, h2, h3, h4⟩
          · rcases mem_writeUnit h with h | h
            · exact .inr ⟨n, le_rfl, by omega, hn, h⟩
            · exact .inl h
          · exact .inr ⟨m, by omega, by omega, h3, h4⟩
      · right; left
        refine ⟨m, by omega, by omega, h3, he, h4, ?_⟩
        intro l hl1 hl2 hl3
        rcases later l hl1 hl3 with rfl | h
        · exact hhere
        · exact h5 l h hl2 hl3
      · right; right
        refine ⟨m, e, by omega, by omega, h3, he, h4, h5, ?_⟩
        intro l hl1 hl2 hl3
        rcases later l hl1 hl3 with rfl | h
        · exact hhere
        · exact h6 l h hl2 hl3

/-- An odd length, as a number. -/
theorem oddLength_iff (w : Width) (len : Word) : oddLength w len = true ↔ len.toNat % w.bytes ≠ 0 := by
  cases w with
  | w8 => simp [oddLength, Nat.mod_one]
  | w16 => simp [oddLength, BitVec.getLsbD, Nat.testBit_zero]

/-- The loop of a whole transform visits the whole length. -/
theorem iterations_mul (w : Width) (len : Word) (h : len.toNat % w.bytes = 0) :
    iterations w len * w.bytes = len.toNat := by
  simp only [iterations]
  exact Nat.div_mul_cancel (Nat.dvd_of_mod_eq_zero h)

/-- Everything the body of XFORM can do (R150, R154, R156, R178): LengthFault on an odd length at width 16; completion with
all units written; BoundsFault at the first position out of bounds; or the refusal of a byte without a value. -/
theorem xformBody_cases (w : Width) (d : Dir) (s : State) :
    (s.len.toNat % w.bytes ≠ 0 ∧ xformBody w d s = .next (raiseFault .lengthFault s)) ∨
    (s.len.toNat % w.bytes = 0 ∧
      ((∃ ob', xformBody w d s = .next (complete { s with pos := s.len, ob := ob' }) ∧
          LoopWrote s.cfg w d s.len s.ib 0 (iterations w s.len) s.ob ob') ∨
       (∃ m, visited w s.len.toNat m ∧ s.len.toNat ≤ permutedPos s.cfg.tab w d m ∧
          (∀ l < m, l % w.bytes = 0 → permutedPos s.cfg.tab w d l < s.len.toNat ∧
            ∃ v, readUnit s.cfg.wordOrder s.ib l w = .ok v) ∧
          xformBody w d s = .next (raiseFault .boundsFault
            { s with pos := BitVec.ofNat 32 m, fpos := BitVec.ofNat 32 m
                     faddr := permuteAddr s.cfg.tab w d (BitVec.ofNat 32 m) })) ∨
       (∃ m e, visited w s.len.toNat m ∧ readUnit s.cfg.wordOrder s.ib m w = .error e ∧
          permutedPos s.cfg.tab w d m < s.len.toNat ∧
          (∀ l < m, l % w.bytes = 0 → permutedPos s.cfg.tab w d l < s.len.toNat ∧
            ∃ v, readUnit s.cfg.wordOrder s.ib l w = .ok v) ∧
          xformBody w d s = .refused (.inputByteWithoutValue e)))) := by
  by_cases hodd : s.len.toNat % w.bytes = 0
  · right
    refine ⟨hodd, ?_⟩
    have ho : oddLength w s.len = false := by
      rw [← Bool.not_eq_true, oddLength_iff]; simpa using hodd
    have hit := iterations_mul w s.len hodd
    have hlt := s.len.isLt
    rcases xformLoop_cases s.cfg w d s.len s.ib (iterations w s.len) 0 s.ob (by omega) (Nat.zero_mod _) with
      ⟨ob', he, hw⟩ | ⟨m, _, h2, h3, he, h4, h5⟩ | ⟨m, e, _, h2, h3, he, h4, h5, h6⟩
    · left
      refine ⟨ob', ?_, hw⟩
      simp only [xformBody, ho, he, Bool.false_eq_true, if_false, hit, Nat.zero_add]
      rw [show BitVec.ofNat 32 s.len.toNat = s.len by simp]
    · right; left
      refine ⟨m, ⟨by omega, h3⟩, h4, fun l hl1 hl2 => h5 l (Nat.zero_le _) hl1 hl2, ?_⟩
      simp only [xformBody, ho, he, Bool.false_eq_true, if_false]
    · right; right
      refine ⟨m, e, ⟨by omega, h3⟩, h4, h5, fun l hl1 hl2 => h6 l (Nat.zero_le _) hl1 hl2, ?_⟩
      simp only [xformBody, ho, he, Bool.false_eq_true, if_false]
  · left
    refine ⟨hodd, ?_⟩
    have ho : oddLength w s.len = true := (oddLength_iff _ _).2 hodd
    simp [xformBody, ho]

/-- Everything XFORM can do: the body, or the refusal of a length above the capacity (R197). -/
theorem xform_cases (w : Width) (d : Dir) (s : State) :
    (s.cfg.cap.val < s.len.toNat ∧ xform w d s = .refused .lengthAboveCapacity) ∨
    (s.len.toNat ≤ s.cfg.cap.val ∧ xform w d s = xformBody w d s) := by
  by_cases h : s.cfg.cap.val < s.len.toNat
  · exact .inl ⟨h, by simp [xform, h]⟩
  · exact .inr ⟨by omega, by simp [xform, h]⟩

end Sys2Proof.Machine
end

