-- ==== Sys2Proof/Laws/Detect.lean ====
section
/-! SUPPORT. What the detector can answer, said once (spec/42_format_detect.md R131 to R137). -/

namespace Sys2Proof.Machine

/-- A view byte that cannot be computed names a byte of `IB` below `LEN` that holds no value. -/
theorem viewByte_unwritten {c : Config} {len : Word} {ib : Memory} {d : Dir} {w : Width} {j a : Nat}
    (h : viewByte c len ib d w j = .unwritten a) : a < len.toNat ∧ memRead ib a = none := by
  simp only [viewByte] at h
  split at h
  · cases h
  · rename_i hj
    cases d with
    | S =>
      simp only at h
      split at h
      · cases h
      · rename_i hm; cases h; exact ⟨not_not.1 hj, hm⟩
    | D =>
      cases w with
      | w8 =>
        simp only at h
        split at h
        · cases h
        · rename_i ha
          split at h
          · cases h
          · rename_i hm; cases h; exact ⟨not_not.1 ha, hm⟩
      | w16 =>
        simp only at h
        split at h
        · cases h
        · rename_i ha
          split at h
          · cases h
          · rename_i e hr
            cases h
            obtain ⟨k, hk, rfl, hn⟩ := readUnit_error hr
            simp only [Width.bytes] at hk
            exact ⟨by omega, hn⟩

/-- An offset at or above `LEN` is absent (R137). -/
theorem viewByte_absent (c : Config) (len : Word) (ib : Memory) (d : Dir) (w : Width) (j : Nat) (h : len.toNat ≤ j) :
    viewByte c len ib d w j = .absent := by
  simp [viewByte, Nat.not_lt.2 h]

/-- In direction S the view is the input (R131). -/
theorem viewByte_S (c : Config) (len : Word) (ib : Memory) (w : Width) (j : Nat) (b : Byte) :
    viewByte c len ib .S w j = .present b ↔ j < len.toNat ∧ memRead ib j = some b := by
  simp only [viewByte]
  by_cases h : j < len.toNat
  · cases hm : memRead ib j <;> simp [h]
  · simp [h]

theorem headerHole_some {h : List ViewByte} {a : Nat} (hh : headerHole h = some a) : ViewByte.unwritten a ∈ h := by
  induction h with
  | nil => cases hh
  | cons v h ih =>
    cases v with
    | present b => exact List.mem_cons_of_mem _ (ih hh)
    | absent => exact List.mem_cons_of_mem _ (ih hh)
    | unwritten e => cases hh; exact List.mem_cons_self

theorem headerHole_none {h : List ViewByte} : headerHole h = none ↔ ∀ a, ViewByte.unwritten a ∉ h := by
  induction h with
  | nil => simp [headerHole]
  | cons v h ih =>
    cases v with
    | present b => simp [headerHole, ih]
    | absent => simp [headerHole, ih]
    | unwritten e =>
      simp only [headerHole, reduceCtorEq, false_iff, not_forall, not_not]
      exact ⟨e, List.mem_cons_self⟩

/-- A header with a hole names a byte of `IB` below `LEN` that holds no value. -/
theorem header_hole {c : Config} {len : Word} {ib : Memory} {d : Dir} {w : Width} {a : Nat}
    (h : headerHole (header c len ib d w) = some a) : a < len.toNat ∧ memRead ib a = none := by
  have := headerHole_some h
  simp only [header, List.mem_map] at this
  obtain ⟨j, _, hj⟩ := this
  exact viewByte_unwritten hj

/-- Comparing the signature of a header is comparing its six view bytes (R132). -/
theorem sigMatch_iff (c : Config) (len : Word) (ib : Memory) (d : Dir) (w : Width) (bytes : List Byte)
    (hb : bytes.length = 6) :
    bytesMatch (headerSig (header c len ib d w)) bytes = true ↔
      ∀ (k : Nat) (h : k < bytes.length), viewByte c len ib d w (0 + k) = .present bytes[k] := by
  obtain ⟨b0, b1, b2, b3, b4, b5, rfl⟩ : ∃ b0 b1 b2 b3 b4 b5, bytes = [b0, b1, b2, b3, b4, b5] := by
    match bytes, hb with
    | [b0, b1, b2, b3, b4, b5], _ => exact ⟨b0, b1, b2, b3, b4, b5, rfl⟩
  simp only [bytesMatch, headerSig, header, headerOffsets, List.map_cons, List.map_nil, List.take_succ_cons,
    List.take_zero, beq_iff_eq, List.cons.injEq, and_true]
  constructor
  · rintro ⟨h0, h1, h2, h3, h4, h5⟩ k hk
    simp only [List.length_cons, List.length_nil] at hk
    interval_cases k <;> simpa
  · intro h
    exact ⟨h 0 (by simp), h 1 (by simp), h 2 (by simp), h 3 (by simp), h 4 (by simp), h 5 (by simp)⟩

/-- Comparing the tag of a header is comparing its three view bytes (R132). -/
theorem tagMatch_iff (c : Config) (len : Word) (ib : Memory) (d : Dir) (w : Width) (bytes : List Byte)
    (hb : bytes.length = 3) :
    bytesMatch (headerTag (header c len ib d w)) bytes = true ↔
      ∀ (k : Nat) (h : k < bytes.length), viewByte c len ib d w (0xC + k) = .present bytes[k] := by
  obtain ⟨b0, b1, b2, rfl⟩ : ∃ b0 b1 b2, bytes = [b0, b1, b2] := by
    match bytes, hb with
    | [b0, b1, b2], _ => exact ⟨b0, b1, b2, rfl⟩
  simp only [bytesMatch, headerTag, header, headerOffsets, List.map_cons, List.map_nil, List.drop_succ_cons,
    List.drop_zero, beq_iff_eq, List.cons.injEq, and_true]
  constructor
  · rintro ⟨h0, h1, h2⟩ k hk
    simp only [List.length_cons, List.length_nil] at hk
    interval_cases k <;> simpa
  · intro h
    exact ⟨h 0 (by simp), h 1 (by simp), h 2 (by simp)⟩

/-- The byte `DIAG` number `k` takes from a header (R135). -/
theorem diagOf_getElem (h : List ViewByte) (k : Nat) (hk : k < 9) :
    (diagOf h)[k] = diagByte (h[k]?.getD .absent) := by
  simp only [diagOf]
  interval_cases k <;> rfl

/-- Everything the detector can answer (R133): the address of a byte without a value, or the first trial that matches,
in the order SR-JV80, JP-800, SRX, else Unknown, each with the header of its trial. -/
theorem detect_cases (c : Config) (len : Word) (ib : Memory) (d : Dir) :
    (∃ a, detect c len ib d = .error a ∧ a < len.toNat ∧ memRead ib a = none) ∨
    (detect c len ib d = .ok { rom := .srjv80, width := .w8, header := header c len ib d .w8 } ∧
      bytesMatch (headerSig (header c len ib d .w8)) sigRoland = true ∧
      bytesMatch (headerTag (header c len ib d .w8)) tagSrjv80 = true) ∨
    (detect c len ib d = .ok { rom := .jp800, width := .w8, header := header c len ib d .w8 } ∧
      ¬ (bytesMatch (headerSig (header c len ib d .w8)) sigRoland = true ∧
        bytesMatch (headerTag (header c len ib d .w8)) tagSrjv80 = true) ∧
      bytesMatch (headerSig (header c len ib d .w8)) sigJp800 = true) ∨
    (detect c len ib d = .ok { rom := .srx, width := .w16, header := header c len ib d .w16 } ∧
      ¬ (bytesMatch (headerSig (header c len ib d .w8)) sigRoland = true ∧
        bytesMatch (headerTag (header c len ib d .w8)) tagSrjv80 = true) ∧
      ¬ bytesMatch (headerSig (header c len ib d .w8)) sigJp800 = true ∧
      bytesMatch (headerSig (header c len ib d .w16)) sigRoland = true ∧
      bytesMatch (headerTag (header c len ib d .w16)) tagSrx = true) ∨
    (detect c len ib d = .ok { rom := .unknown, width := .w8, header := header c len ib d .w16 } ∧
      ¬ (bytesMatch (headerSig (header c len ib d .w8)) sigRoland = true ∧
        bytesMatch (headerTag (header c len ib d .w8)) tagSrjv80 = true) ∧
      ¬ bytesMatch (headerSig (header c len ib d .w8)) sigJp800 = true ∧
      ¬ (bytesMatch (headerSig (header c len ib d .w16)) sigRoland = true ∧
        bytesMatch (headerTag (header c len ib d .w16)) tagSrx = true)) := by
  cases h8 : headerHole (header c len ib d .w8) with
  | some a => exact .inl ⟨a, by simp [detect, h8], header_hole h8⟩
  | none =>
    by_cases hr : bytesMatch (headerSig (header c len ib d .w8)) sigRoland = true ∧
        bytesMatch (headerTag (header c len ib d .w8)) tagSrjv80 = true
    · exact .inr (.inl ⟨by simp [detect, h8, trial8, hr], hr⟩)
    · have hr' := hr
      rw [← Bool.and_eq_true] at hr'
      by_cases hj : bytesMatch (headerSig (header c len ib d .w8)) sigJp800 = true
      · exact .inr (.inr (.inl ⟨by simp only [detect, h8, trial8, if_neg hr', hj, if_true], hr, hj⟩))
      · cases h16 : headerHole (header c len ib d .w16) with
        | some a => exact .inl ⟨a, by simp only [detect, h8, trial8, if_neg hr', if_neg hj, h16], header_hole h16⟩
        | none =>
          by_cases hx : bytesMatch (headerSig (header c len ib d .w16)) sigRoland = true ∧
              bytesMatch (headerTag (header c len ib d .w16)) tagSrx = true
          · refine .inr (.inr (.inr (.inl ⟨?_, hr, hj, hx⟩)))
            have hx' := hx
            rw [← Bool.and_eq_true] at hx'
            simp only [detect, h8, trial8, if_neg hr', if_neg hj, h16, trial16, if_pos hx']
          · refine .inr (.inr (.inr (.inr ⟨?_, hr, hj, hx⟩)))
            have hx' := hx
            rw [← Bool.and_eq_true] at hx'
            simp only [detect, h8, trial8, if_neg hr', if_neg hj, h16, trial16, if_neg hx']

/-- The legal pairs of type and width (R27): the detector answers no other. -/
theorem detect_width {c : Config} {len : Word} {ib : Memory} {d : Dir} {r : Detection}
    (h : detect c len ib d = .ok r) : r.width = r.rom.width := by
  rcases detect_cases c len ib d with ⟨a, he, _⟩ | ⟨he, _⟩ | ⟨he, _⟩ | ⟨he, _⟩ | ⟨he, _⟩ <;> rw [he] at h <;> cases h <;> rfl

end Sys2Proof.Machine
end

