-- ==== Sys2Proof/Laws/Exec.lean ====
section
/-! SUPPORT. What a command, a host action and a step can do when they answer a next state, said once. -/

namespace Sys2Proof.Machine

/-- Everything XFORM's body can do when it answers a next state (R150, R154, R156). -/
theorem xformBody_next {w : Width} {d : Dir} {s t : State} (h : xformBody w d s = .next t) :
    (s.len.toNat % w.bytes ≠ 0 ∧ t = raiseFault .lengthFault s) ∨
    (s.len.toNat % w.bytes = 0 ∧ ∃ ob', t = complete { s with pos := s.len, ob := ob' } ∧
      LoopWrote s.cfg w d s.len s.ib 0 (iterations w s.len) s.ob ob') ∨
    (s.len.toNat % w.bytes = 0 ∧ ∃ m, visited w s.len.toNat m ∧ s.len.toNat ≤ permutedPos s.cfg.tab w d m ∧
      t = raiseFault .boundsFault
        { s with pos := BitVec.ofNat 32 m, fpos := BitVec.ofNat 32 m
                 faddr := permuteAddr s.cfg.tab w d (BitVec.ofNat 32 m) }) := by
  rcases xformBody_cases w d s with ⟨ho, he⟩ | ⟨hev, ⟨ob', he, hw⟩ | ⟨m, hm, hle, _, he⟩ | ⟨m, e, _, _, _, _, he⟩⟩ <;>
    rw [he] at h
  · cases h; exact .inl ⟨ho, rfl⟩
  · cases h; exact .inr (.inl ⟨hev, ob', rfl, hw⟩)
  · cases h; exact .inr (.inr ⟨hev, m, hm, hle, rfl⟩)
  · cases h

/-- Everything DETECT can do (R130, R197). -/
theorem detectCommand_next {d : Dir} {s t : State} (h : detectCommand d s = .next t) :
    s.len.toNat ≤ s.cfg.cap.val ∧
      ∃ r, detect s.cfg s.len s.ib d = .ok r ∧ t = complete (latchDetection r s) := by
  simp only [detectCommand] at h
  split at h
  · cases h
  · rename_i hc
    split at h
    · cases h
    · rename_i r hr
      cases h
      exact ⟨by omega, r, hr, rfl⟩

/-- Everything RUN can do when it answers a next state (R160, R197). -/
theorem runCommand_next {d : Dir} {s t : State} (h : runCommand d s = .next t) :
    s.len.toNat ≤ s.cfg.cap.val ∧ ∃ r, detect s.cfg s.len s.ib d = .ok r ∧
      ((r.rom = .unknown ∧ t = raiseFault .formatError (latchDetection r s)) ∨
       (r.rom ≠ .unknown ∧ xformBody r.width d (latchDetection r s) = .next t)) := by
  simp only [runCommand] at h
  split at h
  · cases h
  · rename_i hc
    split at h
    · cases h
    · rename_i r hr
      refine ⟨by omega, r, hr, ?_⟩
      split at h
      · rename_i hu
        cases h
        exact .inl ⟨hu, rfl⟩
      · rename_i hu
        exact .inr ⟨hu, h⟩

/-- Everything a command can do when it answers a next state: write a result; latch a detection; run the transform;
latch a detection of no type and fault; latch a detection and run the transform. -/
theorem exec_next {i : Instr} {s t : State} (h : exec i s = .next t) :
    (∃ v w d, (i = pdataOf w d ∨ i = paddrOf w d) ∧ t = complete (writeRes v s)) ∨
    (∃ d r, i = detectOf d ∧ s.len.toNat ≤ s.cfg.cap.val ∧ detect s.cfg s.len s.ib d = .ok r ∧
      t = complete (latchDetection r s)) ∨
    (∃ w d, i = xformOf w d ∧ s.len.toNat ≤ s.cfg.cap.val ∧ xformBody w d s = .next t) ∨
    (∃ d r, i = runOf d ∧ s.len.toNat ≤ s.cfg.cap.val ∧ detect s.cfg s.len s.ib d = .ok r ∧
      ((r.rom = .unknown ∧ t = raiseFault .formatError (latchDetection r s)) ∨
       (r.rom ≠ .unknown ∧ xformBody r.width d (latchDetection r s) = .next t))) := by
  have hx : ∀ w d, xform w d s = .next t → s.len.toNat ≤ s.cfg.cap.val ∧ xformBody w d s = .next t := by
    intro w d h
    rcases xform_cases w d s with ⟨_, he⟩ | ⟨hc, he⟩
    · rw [he] at h; cases h
    · exact ⟨hc, he ▸ h⟩
  cases i with
  | pdata8D => cases h; exact .inl ⟨_, .w8, .D, .inl rfl, rfl⟩
  | pdata16D => cases h; exact .inl ⟨_, .w16, .D, .inl rfl, rfl⟩
  | pdata8S => cases h; exact .inl ⟨_, .w8, .S, .inl rfl, rfl⟩
  | pdata16S => cases h; exact .inl ⟨_, .w16, .S, .inl rfl, rfl⟩
  | paddr8D => cases h; exact .inl ⟨_, .w8, .D, .inr rfl, rfl⟩
  | paddr16D => cases h; exact .inl ⟨_, .w16, .D, .inr rfl, rfl⟩
  | paddr8S => cases h; exact .inl ⟨_, .w8, .S, .inr rfl, rfl⟩
  | paddr16S => cases h; exact .inl ⟨_, .w16, .S, .inr rfl, rfl⟩
  | detectD => obtain ⟨hc, r, hr, ht⟩ := detectCommand_next h; exact .inr (.inl ⟨.D, r, rfl, hc, hr, ht⟩)
  | detectS => obtain ⟨hc, r, hr, ht⟩ := detectCommand_next h; exact .inr (.inl ⟨.S, r, rfl, hc, hr, ht⟩)
  | xform8D => exact .inr (.inr (.inl ⟨.w8, .D, rfl, hx _ _ h⟩))
  | xform16D => exact .inr (.inr (.inl ⟨.w16, .D, rfl, hx _ _ h⟩))
  | xform8S => exact .inr (.inr (.inl ⟨.w8, .S, rfl, hx _ _ h⟩))
  | xform16S => exact .inr (.inr (.inl ⟨.w16, .S, rfl, hx _ _ h⟩))
  | runD => obtain ⟨hc, r, hr, ht⟩ := runCommand_next h; exact .inr (.inr (.inr ⟨.D, r, rfl, hc, hr, ht⟩))
  | runS => obtain ⟨hc, r, hr, ht⟩ := runCommand_next h; exact .inr (.inr (.inr ⟨.S, r, rfl, hc, hr, ht⟩))

/-- The command each operation, width and direction names, as its meaning (R81). -/
@[simp] theorem exec_pdataOf (w : Width) (d : Dir) (s : State) : exec (pdataOf w d) s = pdata w d s := by
  cases w <;> cases d <;> rfl

@[simp] theorem exec_paddrOf (w : Width) (d : Dir) (s : State) : exec (paddrOf w d) s = paddr w d s := by
  cases w <;> cases d <;> rfl

@[simp] theorem exec_xformOf (w : Width) (d : Dir) (s : State) : exec (xformOf w d) s = xform w d s := by
  cases w <;> cases d <;> rfl

@[simp] theorem exec_detectOf (d : Dir) (s : State) : exec (detectOf d) s = detectCommand d s := by cases d <;> rfl

@[simp] theorem exec_runOf (d : Dir) (s : State) : exec (runOf d) s = runCommand d s := by cases d <;> rfl

/-- What a read of `ROMTYPE` can return while a detection is in flight: what it held or an outcome (R27). -/
theorem freeRomtype_mem (held pick : Byte) : freeRomtype held pick = held ∨ freeRomtype held pick ∈ romtypeOutcomes := by
  have h : pick.toNat % 5 < (held :: romtypeOutcomes).length := by simp [romtypeOutcomes]; omega
  simp only [freeRomtype, List.getElem?_eq_getElem h, Option.getD_some]
  exact List.mem_cons.1 (List.getElem_mem h)

/-- Everything a host read of a register can do (R20, R61 b): answer what the register holds, or, while BUSY and if the
command in flight writes it, a free value. -/
theorem hostReadReg_cases (i : Nat) (s : State) :
    (¬ (s.engine = .busy ∧ inFlightWrites i s = true) ∧
      hostReadReg i s = .next { s with rdata := .reg (regValue s i) }) ∨
    (s.engine = .busy ∧ inFlightWrites i s = true ∧
      hostReadReg i s = .next { s with rdata := .reg (freeReg i s), draws := s.draws + 1 }) := by
  by_cases h : s.engine = .busy ∧ inFlightWrites i s = true
  · exact .inr ⟨h.1, h.2, by simp [hostReadReg, h]⟩
  · exact .inl ⟨h, by simp only [hostReadReg, if_neg h]⟩

/-- Everything a host action can change when it answers a next state: the engine starts, or a host register is written,
outside a command and outside FAULT; a byte of `IB` is written, outside a command; what the host read, with or
without a free value; nothing; or everything, by reset. -/
theorem hostAct_next {e : HostEvent} {s t : State} (h : hostAct e s = .next t) :
    (∃ i v, e = .writeReg i v ∧ (s.engine = .idle ∨ s.engine = .done) ∧ t = regWriteReady i v s) ∨
    (∃ i v, e = .writeReg i v ∧ (s.engine = .busy ∨ s.engine = .fault) ∧ t = s) ∨
    (∃ a b, e = .writeIB a b ∧ a.toNat < s.cfg.cap.val ∧ s.engine ≠ .busy ∧
      t = { s with ib := memWrite s.ib a.toNat b }) ∨
    (∃ r n, (s.engine ≠ .busy → n = s.draws) ∧ (∀ i v, e ≠ .writeReg i v) ∧ (∀ a b, e ≠ .writeIB a b) ∧ e ≠ .reset ∧
      t = { s with rdata := r, draws := n }) ∨
    (e = .reset ∧ t = resetMachine s) := by
  cases e with
  | writeReg i v =>
    simp only [hostAct, hostWriteReg] at h
    cases he : s.engine <;> simp only [he] at h
    · cases h; exact .inl ⟨i, v, rfl, .inl rfl, rfl⟩
    · split at h
      · cases h
      · cases h; exact .inr (.inl ⟨i, v, rfl, .inl rfl, rfl⟩)
    · cases h; exact .inl ⟨i, v, rfl, .inr rfl, rfl⟩
    · cases h; exact .inr (.inl ⟨i, v, rfl, .inr rfl, rfl⟩)
  | readReg i =>
    right; right; right; left
    rcases hostReadReg_cases i s with ⟨_, he⟩ | ⟨hb, _, he⟩ <;> rw [hostAct, he] at h <;> cases h
    · exact ⟨_, _, fun _ => rfl, by simp, by simp, by simp, rfl⟩
    · exact ⟨_, _, fun hn => absurd hb hn, by simp, by simp, by simp, rfl⟩
  | writeIB a b =>
    simp only [hostAct, hostWriteIB] at h
    split at h
    · cases h
    · rename_i hc
      split at h
      · cases h
      · rename_i hb
        cases h
        exact .inr (.inr (.inl ⟨a, b, rfl, not_not.1 hc, hb, rfl⟩))
  | readIB a =>
    simp only [hostAct, hostReadIB] at h
    right; right; right; left
    split at h
    · cases h
    · split at h
      · cases h
        exact ⟨_, _, fun _ => rfl, by simp, by simp, by simp, rfl⟩
      · cases h
  | readOB a =>
    simp only [hostAct, hostReadOB] at h
    right; right; right; left
    split at h
    · cases h
    · split at h
      · rename_i hb
        cases h
        exact ⟨_, _, fun hn => absurd hb hn, by simp, by simp, by simp, rfl⟩
      · split at h
        · cases h
          exact ⟨_, _, fun _ => rfl, by simp, by simp, by simp, rfl⟩
        · cases h
  | samplePorts aIn dIn selW selD =>
    cases h
    exact .inr (.inr (.inr (.inl ⟨_, _, fun _ => rfl, by simp, by simp, by simp, rfl⟩)))
  | wait =>
    cases h
    exact .inr (.inr (.inr (.inl ⟨_, _, fun _ => rfl, by simp, by simp, by simp, rfl⟩)))
  | reset =>
    cases h
    exact .inr (.inr (.inr (.inr ⟨rfl, rfl⟩)))

/-- What a step is: the engine's move, the host's oldest action, or nothing (R7, R21, R191). -/
theorem step_cases (s : State) :
    (s.engine = .busy ∧ hostYields s = true ∧ step s = engineMove s) ∨
    (s.engine ≠ .busy ∧ s.host = [] ∧ step s = .next s) ∨
    (∃ e rest, s.host = e :: rest ∧ (s.engine = .busy → e ≠ .wait) ∧ step s = hostAct e { s with host := rest }) := by
  by_cases hb : s.engine = .busy ∧ hostYields s = true
  · exact .inl ⟨hb.1, hb.2, by simp [step, moveNext, hb]⟩
  · cases hh : s.host with
    | nil =>
      refine .inr (.inl ⟨fun h => hb ⟨h, by simp [hostYields, hh]⟩, rfl, ?_⟩)
      simp only [step, moveNext, if_neg hb, hh]
    | cons e rest =>
      refine .inr (.inr ⟨e, rest, rfl, ?_, ?_⟩)
      · rintro h rfl
        exact hb ⟨h, by simp [hostYields, hh]⟩
      · simp only [step, moveNext, if_neg hb, hh]

/-- The engine's move runs the decoded command, or raises IllegalCommand (R21, R84, R172). -/
theorem engineMove_cases (s : State) :
    (∃ i, decode s.cmd = .ok i ∧ engineMove s = exec i s) ∨
    (∃ e, decode s.cmd = .error e ∧ engineMove s = .next (raiseFault .illegalCommand s)) := by
  cases h : decode s.cmd with
  | ok i => exact .inl ⟨i, rfl, by simp [engineMove, fetchCommand, h]⟩
  | error e => exact .inr ⟨e, rfl, by simp [engineMove, fetchCommand, h]⟩

end Sys2Proof.Machine
end

