-- ==== Sys2Proof/Laws/PerInstr.lean ====
section
/-! SUPPORT. The statements made for every command, one lemma per constructor of Instr. -/

namespace Sys2Proof.Laws

/-- The command is well formed, its byte decodes to it, and its mnemonic in a listing stands for it (R80 to R89). -/
def RoundTrip.Statement (i : Instr) : Prop :=
  i.wellFormed = true ∧ decode (encode i) = .ok i ∧ instrOfName (mnemonic i) = some i

theorem RoundTrip.pdata8D : RoundTrip.Statement .pdata8D := ⟨by decide, by rfl, by decide +kernel⟩

theorem RoundTrip.pdata16D : RoundTrip.Statement .pdata16D := ⟨by decide, by rfl, by decide +kernel⟩

theorem RoundTrip.pdata8S : RoundTrip.Statement .pdata8S := ⟨by decide, by rfl, by decide +kernel⟩

theorem RoundTrip.pdata16S : RoundTrip.Statement .pdata16S := ⟨by decide, by rfl, by decide +kernel⟩

theorem RoundTrip.paddr8D : RoundTrip.Statement .paddr8D := ⟨by decide, by rfl, by decide +kernel⟩

theorem RoundTrip.paddr16D : RoundTrip.Statement .paddr16D := ⟨by decide, by rfl, by decide +kernel⟩

theorem RoundTrip.paddr8S : RoundTrip.Statement .paddr8S := ⟨by decide, by rfl, by decide +kernel⟩

theorem RoundTrip.paddr16S : RoundTrip.Statement .paddr16S := ⟨by decide, by rfl, by decide +kernel⟩

theorem RoundTrip.detectD : RoundTrip.Statement .detectD := ⟨by decide, by rfl, by decide +kernel⟩

theorem RoundTrip.detectS : RoundTrip.Statement .detectS := ⟨by decide, by rfl, by decide +kernel⟩

theorem RoundTrip.xform8D : RoundTrip.Statement .xform8D := ⟨by decide, by rfl, by decide +kernel⟩

theorem RoundTrip.xform16D : RoundTrip.Statement .xform16D := ⟨by decide, by rfl, by decide +kernel⟩

theorem RoundTrip.xform8S : RoundTrip.Statement .xform8S := ⟨by decide, by rfl, by decide +kernel⟩

theorem RoundTrip.xform16S : RoundTrip.Statement .xform16S := ⟨by decide, by rfl, by decide +kernel⟩

theorem RoundTrip.runD : RoundTrip.Statement .runD := ⟨by decide, by rfl, by decide +kernel⟩

theorem RoundTrip.runS : RoundTrip.Statement .runS := ⟨by decide, by rfl, by decide +kernel⟩

end Sys2Proof.Laws
end

