-- ==== Sys2Proof/Tests/Ex.lean ====
section
/-! SUPPORT. The synthetic table set EX of spec/95_test_vectors.md section 2, for tests only: it is not the hardware's. -/

namespace Sys2Proof.Tests

open Sys2Proof.Machine

/-- The table set EX (spec/95_test_vectors.md section 2). -/
def exTables : TableSet :=
  { d8S := { pi := [3, 6, 0, 5, 1, 7, 2, 4] }
    d8D := { pi := [2, 4, 6, 0, 7, 3, 1, 5] }
    d16S := { pi := [9, 4, 14, 0, 11, 6, 2, 13, 5, 15, 1, 8, 3, 10, 7, 12] }
    d16D := { pi := [3, 10, 6, 12, 1, 8, 5, 14, 11, 0, 13, 4, 15, 7, 2, 9] }
    a8S := { pi := [4, 2, 5, 0, 1, 3, 11, 17, 6, 14, 8, 18, 9, 16, 7, 12, 10, 15, 13] }
    a8D := { pi := [3, 4, 1, 5, 0, 2, 8, 14, 10, 12, 16, 6, 15, 18, 9, 17, 13, 7, 11] }
    a16S := { pi := [0, 5, 2, 3, 1, 4, 12, 9, 16, 6, 17, 7, 13, 10, 14, 8, 11, 15] }
    a16D := { pi := [0, 4, 2, 3, 5, 1, 9, 11, 15, 7, 13, 16, 6, 12, 14, 17, 8, 10] } }

/-- EX is well formed (spec/95_test_vectors.md section 2, checks of WF). -/
theorem exTables_wf : exTables.wf = true := by decide +kernel

/-- EX with a word order and room for 256 bytes. -/
def exConfig (o : WordOrder) : Config := { tab := exTables, tabWf := exTables_wf, wordOrder := o, cap := 256 }

/-- A buffer that holds the listed bytes from address `a` on. -/
def bytesAt : Nat → List Byte → Memory
  | _, [] => []
  | a, b :: bs => (a, b) :: bytesAt (a + 1) bs

/-- The reset machine with EX installed. -/
def exReset : State := { State.reset with cfg := exConfig .little }

/-- A machine with EX whose `IB` holds an image and whose `LEN` is its length, executing. -/
def exImage (o : WordOrder) (image : List Byte) : State :=
  ({ State.reset with cfg := exConfig o, ib := bytesAt 0 image, len := BitVec.ofNat 32 image.length }).setEngine .busy

/-- The next state of an outcome. -/
def nextOf : Host.Outcome State Fault Refusal → Option State
  | .next s => some s
  | _ => none

/-- The refusal of an outcome. -/
def refusalOf : Host.Outcome State Fault Refusal → Option Refusal
  | .refused r => some r
  | _ => none

/-- The fault of an outcome. -/
def faultOf : Host.Outcome State Fault Refusal → Option Fault
  | .fault r => some r
  | _ => none

end Sys2Proof.Tests
end

