-- ==== Sys2Proof/Tests/Slice0.lean ====
section
/-! SUPPORT. Tests on fixed values: the static checks refuse ill-formed terms, every command byte decodes, one step of each
command gives the value that spec/95_test_vectors.md derives (the vector is named), and a concrete state meets the
hypotheses of every statement that has some. -/

namespace Sys2Proof.Tests

open Sys2Proof.Machine Sys2Proof.Claims

-- One theorem after the other: each of these is a kernel evaluation, and many at once need a thread (and its stack) each.
set_option Elab.async false

/-! ### The static checks refuse what they should (R36, R72, R77, R81, R82) -/

/-- `OP` 0 and 6 are no operation; 1 and 5, the ends of the range, are (R81). -/
theorem test_opDefined_refuses :
    CmdFields.opDefined { op := 0#4, w := false, d := false } = false ∧
    CmdFields.opDefined { op := 6#4, w := false, d := false } = false ∧
    CmdFields.opDefined { op := 1#4, w := false, d := false } = true ∧
    CmdFields.opDefined { op := 5#4, w := false, d := false } = true := by decide

/-- DETECT and RUN take no `W` (R82). -/
theorem test_widthAllowed_refuses :
    CmdFields.widthAllowed { op := 3#4, w := true, d := false } = false ∧
    CmdFields.widthAllowed { op := 5#4, w := true, d := true } = false ∧
    CmdFields.widthAllowed { op := 4#4, w := true, d := true } = true := by decide

/-- Either failure refuses the command. -/
theorem test_wellFormed_refuses :
    CmdFields.wellFormed { op := 15#4, w := false, d := false } = false ∧
    CmdFields.wellFormed { op := 3#4, w := true, d := true } = false := by decide

/-- A non-zero entry after a zero entry (R77). -/
theorem test_mask_entry_after_zero :
    maskIsPrefix [1#32, 0#32, 2#32] = false ∧ fromMask 3 [1#32, 0#32, 2#32] = .error .entryAfterZero := by
  exact ⟨by decide +kernel, rfl⟩

/-- An entry of two set bits (R77). -/
theorem test_mask_two_bits :
    maskSingleBits [1#32, 6#32, 0#32] = false ∧ fromMask 3 [1#32, 6#32, 0#32] = .error .severalBits := by
  exact ⟨by decide +kernel, rfl⟩

/-- Two entries with the same set bit (R77). -/
theorem test_mask_same_bit :
    maskNoCollision [2#32, 2#32, 0#32] = false ∧ fromMask 3 [2#32, 2#32, 0#32] = .error .sameBitTwice := by
  exact ⟨by decide +kernel, rfl⟩

/-- A set bit at the span itself, the lowest that is out of range (R77). -/
theorem test_mask_bit_above_span :
    maskInSpan [1#32, 4#32, 0#32] = false ∧ fromMask 3 [1#32, 4#32, 0#32] = .error .bitAboveSpan := by
  exact ⟨by decide +kernel, rfl⟩

/-- An array without the number of entries of its kind (R71). -/
theorem test_mask_wrong_length : fromMask 16 [2#32, 1#32, 0#32] = .error .wrongLength := by rfl

/-- TAB.D[8][S] of EX in mask form, as spec/95_test_vectors.md section 2 prints it, and back (R71, R72). -/
theorem test_mask_form_of_EX :
    toMask exTables.d8S dataMaskLength =
      [0x8#32, 0x40#32, 0x1#32, 0x20#32, 0x2#32, 0x80#32, 0x4#32, 0x10#32, 0#32, 0#32, 0#32, 0#32, 0#32, 0#32, 0#32, 0#32]
    ∧ fromMask dataMaskLength (toMask exTables.d8S dataMaskLength) = .ok exTables.d8S := by
  exact ⟨by decide +kernel, rfl⟩

/-- A data table of width 8 with nine entries is too wide (R36). -/
theorem test_tables_data_span :
    TableSet.wf { exTables with d8D := { pi := List.range 9 }, d8S := { pi := List.range 9 } } = false := by
  decide +kernel

/-- A destination listed twice, or not below the span, is no bijection (R35). -/
theorem test_tables_bijective :
    PairTable.bijective { pi := [0, 0] } = false ∧ PairTable.bijective { pi := [0, 2] } = false ∧
    TableSet.wf { exTables with d8D := { pi := [0, 0] }, d8S := { pi := [0, 0] } } = false := by decide +kernel

/-- A width-8 address table of eighteen entries (R32, R36). -/
theorem test_tables_address_span :
    TableSet.wf { exTables with a8D := { pi := 1 :: 0 :: (List.range 16).map (· + 2) }
                                a8S := { pi := 1 :: 0 :: (List.range 16).map (· + 2) } } = false := by decide +kernel

/-- A width-8 address table that keeps bit 0 (R32). -/
theorem test_tables_bit0_moves_at_8 :
    TableSet.wf { exTables with a8D := { pi := List.range 19 }, a8S := { pi := List.range 19 } } = false := by
  decide +kernel

/-- A width-16 address table that moves bit 14 (R33). -/
theorem test_tables_bit14_stays_at_16 :
    TableSet.wf { exTables with
      a16D := { pi := [0, 1, 2, 3, 4, 5, 6, 7, 8, 9, 10, 11, 12, 14, 13, 15, 16, 17] }
      a16S := { pi := [0, 1, 2, 3, 4, 5, 6, 7, 8, 9, 10, 11, 12, 14, 13, 15, 16, 17] } } = false := by decide +kernel

/-- Two tables that do not undo each other (R34). -/
theorem test_tables_inverse :
    exTables.d8S.undoneBy exTables.d8S = false ∧ TableSet.wf { exTables with d8D := exTables.d8S } = false := by
  decide +kernel

/-! ### Every command byte, written out from its bits: 7:6 zero, D, W, OP (R80 to R83, R89) -/

theorem test_decode_pdata :
    decode 0b00000001#8 = .ok .pdata8D ∧ decode 0b00010001#8 = .ok .pdata16D ∧
    decode 0b00100001#8 = .ok .pdata8S ∧ decode 0b00110001#8 = .ok .pdata16S := ⟨rfl, rfl, rfl, rfl⟩

theorem test_decode_paddr :
    decode 0b00000010#8 = .ok .paddr8D ∧ decode 0b00010010#8 = .ok .paddr16D ∧
    decode 0b00100010#8 = .ok .paddr8S ∧ decode 0b00110010#8 = .ok .paddr16S := ⟨rfl, rfl, rfl, rfl⟩

theorem test_decode_detect : decode 0b00000011#8 = .ok .detectD ∧ decode 0b00100011#8 = .ok .detectS := ⟨rfl, rfl⟩

theorem test_decode_xform :
    decode 0b00000100#8 = .ok .xform8D ∧ decode 0b00010100#8 = .ok .xform16D ∧
    decode 0b00100100#8 = .ok .xform8S ∧ decode 0b00110100#8 = .ok .xform16S := ⟨rfl, rfl, rfl, rfl⟩

theorem test_decode_run : decode 0b00000101#8 = .ok .runD ∧ decode 0b00100101#8 = .ok .runS := ⟨rfl, rfl⟩

/-- The reserved samples of V50, each with its reason (R84). -/
theorem test_decode_reserved :
    decode 0x00#8 = .error .reservedOperation ∧ decode 0x10#8 = .error .reservedOperation ∧
    decode 0x06#8 = .error .reservedOperation ∧ decode 0x0F#8 = .error .reservedOperation ∧
    decode 0x13#8 = .error .reservedWidth ∧ decode 0x33#8 = .error .reservedWidth ∧
    decode 0x15#8 = .error .reservedWidth ∧ decode 0x35#8 = .error .reservedWidth ∧
    decode 0x41#8 = .error .reservedHighBits ∧ decode 0x81#8 = .error .reservedHighBits ∧
    decode 0xFF#8 = .error .reservedHighBits := ⟨rfl, rfl, rfl, rfl, rfl, rfl, rfl, rfl, rfl, rfl, rfl⟩

/-- A table row's word goes through the decoder, and the aliases of R87 stand for RUN. -/
theorem test_names_and_words :
    decodeTableWord 8 0x24 = some .xform8S ∧ decodeTableWord 8 0x13 = none ∧
    instrOfName "SCRAMBLE" = some .runS ∧ instrOfName "DESCRAMBLE" = some .runD := by decide +kernel

/-! ### One step of each command -/

/-- `RES` and `STATUS` after a command on a value of `OPA`, with EX. -/
def resAfter (i : Instr) (opa : Word) : Option (Word × Byte) :=
  (nextOf (exec i { exReset with opa := opa })).map (fun t => (t.res, t.status))

/-- `OB` below `n` and `STATUS` after a command on an image, with EX. -/
def obAfter (i : Instr) (o : WordOrder) (image : List Byte) (addrs : List Nat) : Option (List (Option Byte) × Byte) :=
  (nextOf (exec i (exImage o image))).map (fun t => (addrs.map (memRead t.ob), t.status))

/-- `ROMTYPE`, `DIAG0..8` and `STATUS` after a command on an image, with EX. -/
def foundAfter (i : Instr) (o : WordOrder) (image : List Byte) : Option (Byte × List Byte × Byte) :=
  (nextOf (exec i (exImage o image))).map (fun t => (t.romtype, t.diag.toList, t.status))

/-- The buffer of V2: an SR-JV80 header, the rest zero. -/
def imageV2 : List Byte := sigRoland ++ List.replicate 6 0#8 ++ tagSrjv80 ++ List.replicate 49 0#8

/-- An SRX header, the rest zero (the header of the image of V34). -/
def imageSrx : List Byte := sigRoland ++ List.replicate 6 0#8 ++ tagSrx ++ List.replicate 49 0#8

/-- The JP-800 image of V41: the tag bytes are 01 02 03. -/
def imageJp : List Byte :=
  sigJp800 ++ List.replicate 6 0#8 ++ [1#8, 2#8, 3#8] ++ List.replicate 49 0#8

/-- Sixty-four bytes of 0x55 (V44). -/
def image55 : List Byte := List.replicate 64 0x55#8

/-- V13, V12: PDATA.8.D. -/
theorem test_pdata8D : resAfter .pdata8D 0xA5#32 = some (0x6C#32, 0x02#8) ∧
    resAfter .pdata8D 0x99#32 = some (0xA5#32, 0x02#8) := by decide +kernel

/-- V12, V15: PDATA.8.S ignores the bits of `OPA` above 7. -/
theorem test_pdata8S : resAfter .pdata8S 0xA5#32 = some (0x99#32, 0x02#8) ∧
    resAfter .pdata8S 0xFFFFFF03#32 = some (0x48#32, 0x02#8) := by decide +kernel

/-- V18: PDATA.16.D. -/
theorem test_pdata16D : resAfter .pdata16D 0x1234#32 = some (0x8143#32, 0x02#8) ∧
    resAfter .pdata16D 0xC848#32 = some (0x1234#32, 0x02#8) := by decide +kernel

/-- V18, V19: PDATA.16.S ignores the bits of `OPA` above 15. -/
theorem test_pdata16S : resAfter .pdata16S 0x11234#32 = some (0xC848#32, 0x02#8) ∧
    resAfter .pdata16S 0xFF#32 = some (0x6A55#32, 0x02#8) := by decide +kernel

/-- V24: PADDR.8.D. -/
theorem test_paddr8D : resAfter .paddr8D 0x12345#32 = some (0x4350A#32, 0x02#8) := by decide +kernel

/-- V25, V21: PADDR.8.S copies bits 31:19 and moves bit 0. -/
theorem test_paddr8S : resAfter .paddr8S 0xABC12345#32 = some (0xABC14C70#32, 0x02#8) ∧
    resAfter .paddr8S 1#32 = some (0x10#32, 0x02#8) := by decide +kernel

/-- V29: PADDR.16.D. -/
theorem test_paddr16D : resAfter .paddr16D 0x12345#32 = some (0x9385#32, 0x02#8) := by decide +kernel

/-- V29, V27: PADDR.16.S copies bits 31:18 and 14, 3, 2, 0. -/
theorem test_paddr16S : resAfter .paddr16S 0xABC52344#32 = some (0xABC51C44#32, 0x02#8) ∧
    resAfter .paddr16S 0x400D#32 = some (0x400D#32, 0x02#8) := by decide +kernel

/-- V40, V41: DETECT.S on SR-JV80 and on JP-800. -/
theorem test_detectS : foundAfter .detectS .little imageV2 =
      some (0x82#8, [0x52#8, 0x6F#8, 0x6C#8, 0x61#8, 0x6E#8, 0x64#8, 0x4F#8, 0xB0#8, 0x53#8], 0x02#8) ∧
    foundAfter .detectS .little imageJp =
      some (0x81#8, [0x4A#8, 0x50#8, 0x2D#8, 0x38#8, 0x30#8, 0x30#8, 1#8, 2#8, 3#8], 0x02#8) := by decide +kernel

/-- V45: near miss on the tag; a buffer that ends before the tag has its bytes stored as 0. -/
theorem test_detectS_misses : foundAfter .detectS .little sigRoland =
      some (0x80#8, [0x52#8, 0x6F#8, 0x6C#8, 0x61#8, 0x6E#8, 0x64#8, 0#8, 0#8, 0#8], 0x02#8) ∧
    (foundAfter .detectS .little (sigRoland ++ List.replicate 6 0#8 ++ [0x4F#8, 0xB0#8, 0x54#8])).map Prod.fst
      = some 0x80#8 := by decide +kernel

/-- V44: DETECT.D on unrelated bytes shows the width-16 view, every word 0xA86E in little order. -/
theorem test_detectD_unknown : foundAfter .detectD .little image55 =
    some (0x80#8, [0x6E#8, 0xA8#8, 0x6E#8, 0xA8#8, 0x6E#8, 0xA8#8, 0x6E#8, 0xA8#8, 0x6E#8], 0x02#8) := by decide +kernel

/-- V45: DETECT.D with gather addresses outside the buffer: the first 16 bytes of the scrambled buffer of V31. -/
theorem test_detectD_short : foundAfter .detectD .little
    ([0x46#8, 0#8, 0#8, 0#8, 0xA5#8] ++ List.replicate 11 0#8) =
    some (0x80#8, [0x60#8, 0x04#8, 0#8, 0#8, 0x48#8, 0x41#8, 0#8, 0#8, 0#8], 0x02#8) := by decide +kernel

/-- V31: XFORM.8.S of the buffer of V2, at the nine addresses of its non-zero bytes. -/
theorem test_xform8S : obAfter .xform8S .little imageV2 [0, 0x10, 4, 0x14, 0x20, 0x30, 0x21, 0x31, 0x25] =
    some ([0x46#8, 0xED#8, 0xA5#8, 0x8C#8, 0xE5#8, 0x85#8, 0x6D#8, 0x92#8, 0x4E#8].map some, 0x02#8) := by decide +kernel

/-- V52: XFORM.8.S of 16 bytes faults at position 1 with address 0x10, and leaves no byte of `OB`. -/
theorem test_xform8S_bounds : (nextOf (exec .xform8S (exImage .little (List.replicate 16 3#8)))).map
    (fun t => (t.status, t.fpos, t.faddr, t.ob)) = some (0x43#8, 1#32, 0x10#32, []) := by decide +kernel

/-- V33 on its first position (`PD(8, D, 0x03)` = 0x14 at 0), and V52: XFORM.8.D. -/
theorem test_xform8D : obAfter .xform8D .little [3#8] [0] = some ([some 0x14#8], 0x02#8) ∧
    (nextOf (exec .xform8D (exImage .little [3#8, 0x0A#8]))).map (fun t => (t.status, t.fpos, t.faddr))
      = some (0x43#8, 1#32, 8#32) := by decide +kernel

/-- V30: XFORM.16.S of two bytes under both word orders. -/
theorem test_xform16S : obAfter .xform16S .little [3#8, 0x0A#8] [0, 1] = some ([some 0x10#8, some 0x83#8], 0x02#8) ∧
    obAfter .xform16S .big [3#8, 0x0A#8] [0, 1] = some ([some 0x80#8, some 0x31#8], 0x02#8) := by decide +kernel

/-- V30 and V53: XFORM.16.D undoes it, and faults at length 4. -/
theorem test_xform16D : obAfter .xform16D .little [0x10#8, 0x83#8] [0, 1] = some ([some 3#8, some 0x0A#8], 0x02#8) ∧
    (nextOf (exec .xform16D (exImage .little (List.replicate 4 3#8)))).map (fun t => (t.status, t.fpos, t.faddr))
      = some (0x43#8, 2#32, 0x10#32) := by decide +kernel

/-- V51: an odd length at width 16, before any byte is read. -/
theorem test_xform16_odd : (nextOf (exec .xform16S { exReset with len := 1#32 })).map (fun t => (t.status, t.fpos, t.ob))
    = some (0x23#8, 0#32, []) := by decide +kernel

/-- V31: RUN.S of the buffer of V2. -/
theorem test_runS : foundAfter .runS .little imageV2 =
      some (0x82#8, [0x52#8, 0x6F#8, 0x6C#8, 0x61#8, 0x6E#8, 0x64#8, 0x4F#8, 0xB0#8, 0x53#8], 0x02#8) ∧
    obAfter .runS .little imageV2 [0, 0x31] = some ([some 0x46#8, some 0x92#8], 0x02#8) := by decide +kernel

/-- V55, V58: RUN.S on unrelated bytes, and on an SRX header of odd length. -/
theorem test_runS_faults : (foundAfter .runS .little image55).map (fun r => (r.1, r.2.2)) = some (0x80#8, 0x33#8) ∧
    (foundAfter .runS .little (imageSrx.take 15)).map (fun r => (r.1, r.2.2)) = some (0x93#8, 0x23#8) := by
  decide +kernel

/-- V57, V55: RUN.D of length 0 and of unrelated bytes. -/
theorem test_runD_faults : (foundAfter .runD .little []).map (fun r => (r.1, r.2.2)) = some (0x80#8, 0x33#8) ∧
    (foundAfter .runD .little image55).map (fun r => (r.1, r.2.2)) = some (0x80#8, 0x33#8) := by decide +kernel

/-! ### Steps of the machine -/

/-- The step after a host's write of a command byte runs that command. -/
theorem test_step_runs_command : (nextOf (step (State.withFetchWord { exReset with opa := 0xA5#32 } 8 0x21))).map
    (fun t => (t.res, t.status)) = some (0x99#32, 0x02#8) := by decide +kernel

/-- From the reset state itself, whatever its configuration is: DETECT.D of length 0 (V45). -/
theorem test_reset_runs_detect : (nextOf (step (State.reset.withFetchWord 8 0x03))).map
    (fun t => (t.romtype, t.status)) = some (0x80#8, 0x02#8) := by rfl

/-- V50: a reserved byte, written by the host, then the engine's move. -/
theorem test_step_illegal : (nextOf (step (exReset.withFetchWord 8 0x13))).map (fun t => (t.status, t.cmd, t.res))
    = some (0x13#8, 0x13#8, 0#32) := by decide +kernel

/-- P4 steps 7 to 9: after a fault `LEN` and `CMD` are not written; reset clears. -/
theorem test_host_fault_and_reset :
    (nextOf (step { exReset with status := 0x43#8, len := 16#32, host := [.writeReg 2 0x40#32] })).map
      (fun t => (t.len, t.status)) = some (16#32, 0x43#8) ∧
    (nextOf (step { exReset with status := 0x43#8, cmd := 0x24#8, host := [.writeReg 0 0x21#32] })).map
      (fun t => (t.cmd, t.status)) = some (0x24#8, 0x43#8) ∧
    (nextOf (step { exReset with status := 0x43#8, fpos := 1#32, ib := [(0, 3#8)], host := [.reset] })).map
      (fun t => (t.status, t.fpos, t.ib)) = some (0x00#8, 0#32, []) := by decide +kernel

/-- P3 step 5 and R20: reading `ROMTYPE`, `STATUS`, a `DIAG` register, and an index outside the table. -/
theorem test_host_reads :
    (nextOf (step { exReset with status := 0x02#8, romtype := 0x93#8, host := [.readReg 5] })).map State.rdata
      = some (.reg 0x93#32) ∧
    (nextOf (step { exReset with status := 0x33#8, host := [.readReg 1] })).map State.rdata = some (.reg 0x33#32) ∧
    (nextOf (step { exReset with diag := exReset.diag.set 8 0x58#8, host := [.readReg 16] })).map State.rdata
      = some (.reg 0x58#32) ∧
    (nextOf (step { exReset with host := [.readReg 17] })).map State.rdata = some (.reg 0#32) := by decide +kernel

/-- The last byte below `CAP` can be written, `CAP` itself does not exist (R50), and a byte that holds no value has no
meaning as data (R203). -/
theorem test_host_buffer_edge :
    (nextOf (step { exReset with host := [.writeIB 255#32 7#8] })).map State.ib = some [(255, 7#8)] ∧
    faultOf (step { exReset with host := [.writeIB 256#32 7#8] }) = some (.noSuchBufferByte 256#32) ∧
    refusalOf (step { exReset with host := [.readOB 0#32] }) = some (.outputByteWithoutValue 0) := by decide +kernel

/-- While BUSY with a host action pending the host moves; with WAIT pending the engine does (R86, assumption 2). -/
theorem test_busy_interleaving :
    (nextOf (step { exReset with status := 0x01#8, cmd := 0x21#8, host := [.readReg 1] })).map
      (fun t => (t.status, t.rdata)) = some (0x01#8, .reg 1#32) ∧
    (nextOf (step { exReset with status := 0x01#8, cmd := 0x21#8, host := [.wait] })).map
      (fun t => (t.status, t.host)) = some (0x02#8, [.wait]) := by decide +kernel

/-- The ports at width 8, direction S (V24, V12): `d_in` is cut to eight bits. -/
theorem test_ports : (nextOf (step { exReset with host := [.samplePorts 0x12345#32 0xFFA5#16 false true] })).map State.rdata
    = some (.ports 0x14C70#32 0x99#16) := by decide +kernel

/-- A RUN.D leaves the ROM ID at 0x20 and the date at 0x30 of `OB` for the host (R58, R162). -/
theorem test_header_fields :
    romIdBytes .D { exReset with romtype := 0x93#8, ob := bytesAt 0x20 (List.replicate 16 0x41#8) }
      = List.replicate 16 (some 0x41#8) ∧
    romIdBytes .S { exReset with romtype := 0x82#8, ib := bytesAt 0x20 (List.replicate 16 0x41#8) }
      = List.replicate 6 (some 0x41#8) ∧
    dateBytes .S { exReset with ib := bytesAt 0x30 (List.replicate 10 0x32#8) } = List.replicate 10 (some 0x32#8) := by
  decide +kernel

/-! ### Witnesses: concrete states that meet the hypotheses of each statement, clause by clause -/

/-- A machine with EX, a capacity of 256 bytes and a length, executing with nothing loaded. -/
def exLength (n : Nat) : State := { exReset with len := BitVec.ofNat 32 n, status := 0x01#8 }

/-- The state after a command, when it has one. -/
def after (i : Instr) (s : State) : State := (nextOf (exec i s)).getD s

/-- `p` with the output of a command copied back to its input (R159). -/
def copied (i : Instr) (p : State) : State := { p with ib := (after i p).ob }

/-- The SR-JV80, JP-800 and SRX images and sixty-four bytes of 0x55, at length 64; 63 bytes of the first. -/
abbrev exJv : State := exImage .little imageV2
abbrev exJp : State := exImage .little imageJp
abbrev exSrx : State := exImage .little imageSrx
abbrev ex55 : State := exImage .little image55
abbrev exJv63 : State := exImage .little (imageV2.take 63)

/-- `bufferReady` at the lengths 0, 1 and 64. -/
theorem witness_bufferReady : bufferReady (exLength 0) ∧ bufferReady (exImage .little [3#8]) ∧ bufferReady exJv ∧
    bufferReady exJp ∧ bufferReady exSrx ∧ bufferReady ex55 := by decide +kernel

/-- EngineFormsAgree: spans 0, 16 (span, width and array length equal), 19 and 32. -/
theorem witness_EngineFormsAgree :
    (PairTable.bijective { pi := [] } = true) ∧
    (exTables.d16S.bijective = true ∧ exTables.d16S.span = 16) ∧
    (exTables.a8S.bijective = true ∧ exTables.a8S.span ≤ 32 ∧ exTables.a8S.span ≤ 20) ∧
    (PairTable.bijective { pi := (List.range 32).reverse } = true ∧
      PairTable.span { pi := (List.range 32).reverse } = 32) := by decide +kernel

/-- MaskFormRoundTrip: a table and an array for each clause; the array has no terminating zero. -/
theorem witness_MaskFormRoundTrip :
    (exTables.d16S.bijective = true ∧ exTables.d16S.span ≤ 32 ∧ exTables.d16S.span ≤ 16) ∧
    fromMask 2 [2#32, 1#32] = .ok { pi := [1, 0] } := ⟨by decide +kernel, rfl⟩

/-- IllFormedArraysRefused: an array for each of its four clauses; in the last the bit is at the span itself. -/
theorem witness_IllFormedArraysRefused :
    (∃ m ∈ [3#32, 0#32], ∃ a b, a ≠ b ∧ m.getLsbD a = true ∧ m.getLsbD b = true) ∧
    (∃ (i j : Nat) (m : Word), i < j ∧ [0#32, 1#32][i]? = some 0#32 ∧ [0#32, 1#32][j]? = some m ∧ m ≠ 0#32) ∧
    (∃ (i j a : Nat) (m n : Word), i ≠ j ∧ [1#32, 1#32][i]? = some m ∧ [1#32, 1#32][j]? = some n ∧
      m.getLsbD a = true ∧ n.getLsbD a = true) ∧
    (∃ m ∈ [4#32, 1#32, 0#32], ∃ a, m.getLsbD a = true ∧
      ([4#32, 1#32, 0#32].filter (fun m => m != 0#32)).length ≤ a) :=
  ⟨⟨3#32, by decide, 0, 1, by decide⟩, ⟨0, 1, 1#32, by decide⟩, ⟨0, 1, 0, 1#32, 1#32, by decide⟩,
    ⟨4#32, by decide, 2, by decide⟩⟩

/-- AddressWidth8 and AddressWidth16: different addresses that agree in the permuted bits. -/
theorem witness_AddressWidths :
    (0x80001#32 ≠ 1#32 ∧ 0x80001#32 &&& 0x0007FFFF#32 = 1#32 &&& 0x0007FFFF#32) ∧
    (0x400F#32 ≠ 2#32 ∧ 0x400F#32 &&& 0x0003BFF2#32 = 2#32 &&& 0x0003BFF2#32) := by decide

/-- AddressWidth16KeepsAlignment: the highest even address. -/
theorem witness_AddressWidth16KeepsAlignment : (0xFFFFFFFE#32).toNat % 2 = 0 := by decide

/-- AddressBlockStructure: the first and the last byte of the last block, at each width. -/
theorem witness_AddressBlockStructure :
    (0 < 2 ^ addrSpan .w8 ∧ 8191 * 2 ^ addrSpan .w8 + 0 < 2 ^ 32) ∧
    (2 ^ 19 - 1 < 2 ^ addrSpan .w8 ∧ 8191 * 2 ^ addrSpan .w8 + (2 ^ 19 - 1) < 2 ^ 32) ∧
    (2 ^ 18 - 1 < 2 ^ addrSpan .w16 ∧ 16383 * 2 ^ addrSpan .w16 + (2 ^ 18 - 1) < 2 ^ 32) := by decide +kernel

/-- AddressBijection: one block, and the whole address range. -/
theorem witness_AddressBijection :
    (1 * 2 ^ addrSpan .w8 ≤ 2 ^ 32 ∧ (0x7FFFF#32).toNat < 1 * 2 ^ addrSpan .w8) ∧
    (8192 * 2 ^ addrSpan .w8 ≤ 2 ^ 32 ∧ (0xFFFFFFFF#32).toNat < 8192 * 2 ^ addrSpan .w8) ∧
    16384 * 2 ^ addrSpan .w16 ≤ 2 ^ 32 := by decide +kernel

/-- PortsAgreeWithCommands: a sample pending while a command executes. -/
theorem witness_PortsAgreeWithCommands :
    ({ exLength 0 with host := [.samplePorts 1#32 2#16 true false] } : State).host =
      .samplePorts 1#32 2#16 true false :: [] := rfl

/-- DetectFindsFirstMatch, RunDetectsAndTransforms, RunFormatErrors, direction S: each outcome is met. -/
theorem witness_outcomes_S :
    (showsSrjv80 exJv .S) ∧ (¬ showsSrjv80 exJp .S ∧ showsJp800 exJp .S) ∧
    (¬ showsSrjv80 exSrx .S ∧ ¬ showsJp800 exSrx .S ∧ showsSrx exSrx .S) ∧
    (¬ showsSrjv80 ex55 .S ∧ ¬ showsJp800 ex55 .S ∧ ¬ showsSrx ex55 .S) := by decide +kernel

/-- The same in direction D, on the scrambled images. -/
theorem witness_outcomes_D :
    (showsSrjv80 (copied .xform8S exJv) .D) ∧
    (¬ showsSrjv80 (copied .xform8S exJp) .D ∧ showsJp800 (copied .xform8S exJp) .D) ∧
    (¬ showsSrjv80 (copied .xform16S exSrx) .D ∧ ¬ showsJp800 (copied .xform16S exSrx) .D ∧
      showsSrx (copied .xform16S exSrx) .D) ∧
    (¬ showsSrjv80 ex55 .D ∧ ¬ showsJp800 ex55 .D ∧ ¬ showsSrx ex55 .D) := by decide +kernel

/-- The scrambled images are loaded too. -/
theorem witness_copied_ready : bufferReady (copied .xform8S exJv) ∧ bufferReady (copied .xform8S exJp) ∧
    bufferReady (copied .xform16S exSrx) := by decide +kernel

/-- DetectPlaintext: the shortest length, 15, with each header. -/
theorem witness_DetectPlaintext :
    (bufferReady (exImage .little (imageV2.take 15)) ∧ 15 ≤ (exImage .little (imageV2.take 15)).len.toNat ∧
      imageHas (exImage .little (imageV2.take 15)) 0 sigRoland ∧
      imageHas (exImage .little (imageV2.take 15)) 0xC tagSrjv80) ∧
    (imageHas exSrx 0 sigRoland ∧ imageHas exSrx 0xC tagSrx) ∧ imageHas exJp 0 sigJp800 ∧
    (¬ imageHas ex55 0 sigRoland ∧ ¬ imageHas ex55 0 sigJp800) := by decide +kernel

/-- Closed lengths of EX: 0, 1, 63, 64 at width 8; 0, 2, 62, 64 at width 16; both directions. -/
theorem witness_closedLength_8 : ∀ L ∈ [0, 1, 63, 64],
    closedLength exTables .w8 .D L ∧ closedLength exTables .w8 .S L := by decide +kernel

theorem witness_closedLength_16 : ∀ L ∈ [0, 2, 62, 64],
    closedLength exTables .w16 .D L ∧ closedLength exTables .w16 .S L := by decide +kernel

/-- ViewIsTheDescrambledBuffer, XformTransformsClosedLength: loaded inputs of the closed lengths 63 and 62. -/
theorem witness_closed_and_ready :
    (bufferReady exJv63 ∧ closedLength exJv63.cfg.tab .w8 .D exJv63.len.toNat ∧
      closedLength exJv63.cfg.tab .w8 .S exJv63.len.toNat) ∧
    (bufferReady (exImage .big (imageV2.take 62)) ∧
      closedLength (exImage .big (imageV2.take 62)).cfg.tab .w16 .D (exImage .big (imageV2.take 62)).len.toNat ∧
      closedLength (exImage .big (imageV2.take 62)).cfg.tab .w16 .S (exImage .big (imageV2.take 62)).len.toNat) := by
  decide +kernel

/-- RunDetectsAndTransforms: all hypotheses together, at both widths and in both directions. -/
theorem witness_RunDetectsAndTransforms :
    (bufferReady exJv ∧ showsSrjv80 exJv .S ∧ closedLength exJv.cfg.tab .w8 .S exJv.len.toNat) ∧
    (bufferReady exSrx ∧ ¬ showsSrjv80 exSrx .S ∧ ¬ showsJp800 exSrx .S ∧ showsSrx exSrx .S ∧
      closedLength exSrx.cfg.tab .w16 .S exSrx.len.toNat) ∧
    (bufferReady (copied .xform8S exJp) ∧ showsJp800 (copied .xform8S exJp) .D ∧
      closedLength (copied .xform8S exJp).cfg.tab .w8 .D (copied .xform8S exJp).len.toNat) ∧
    (bufferReady (copied .xform16S exSrx) ∧ ¬ showsSrjv80 (copied .xform16S exSrx) .D ∧
      ¬ showsJp800 (copied .xform16S exSrx) .D ∧ showsSrx (copied .xform16S exSrx) .D ∧
      closedLength (copied .xform16S exSrx).cfg.tab .w16 .D (copied .xform16S exSrx).len.toNat) := by decide +kernel

/-- RunFormatErrors: all hypotheses together, in both directions. -/
theorem witness_RunFormatErrors :
    bufferReady ex55 ∧ (¬ showsSrjv80 ex55 .S ∧ ¬ showsJp800 ex55 .S ∧ ¬ showsSrx ex55 .S) ∧
    (¬ showsSrjv80 ex55 .D ∧ ¬ showsJp800 ex55 .D ∧ ¬ showsSrx ex55 .D) := by decide +kernel

/-- XformGatherForm, VisitingOrderIrrelevant, NoWriteAtOrAboveLength: completed transforms, and an order. -/
theorem witness_XformGatherForm :
    (completesAs (xformOf .w8 .S) exJv63 (after .xform8S exJv63) ∧ (after .xform8S exJv63).engine = .done ∧
      visited .w8 63 62) ∧
    (completesAs (xformOf .w16 .D) exSrx (after .xform16D exSrx) ∧ (after .xform16D exSrx).engine = .done ∧
      visited .w16 64 62) := ⟨⟨rfl, by decide +kernel⟩, ⟨rfl, by decide +kernel⟩⟩

/-- VisitingOrderIrrelevant: the descending order of the visited positions, at both widths. -/
theorem witness_VisitingOrderIrrelevant :
    exJv63.ob.wf = true ∧
    ((List.range 63).reverse.Perm ((List.range 63).filter (fun n => n % Width.w8.bytes == 0))) ∧
    (((List.range 32).map (· * 2)).reverse.Perm ((List.range 64).filter (fun n => n % Width.w16.bytes == 0))) := by
  decide +kernel

/-- XformBoundsFaults: loaded inputs of the lengths 2 and 62 at width 8, 4 and 60 at width 16, which are not closed. -/
theorem witness_XformBoundsFaults :
    (bufferReady (exImage .little [3#8, 4#8]) ∧ 2 % Width.w8.bytes = 0 ∧ ¬ closedLength exTables .w8 .S 2 ∧
      ¬ closedLength exTables .w8 .D 2 ∧ ¬ closedLength exTables .w8 .S 62) ∧
    (bufferReady (exImage .little (List.replicate 4 3#8)) ∧ 4 % Width.w16.bytes = 0 ∧
      ¬ closedLength exTables .w16 .S 4 ∧ ¬ closedLength exTables .w16 .D 4 ∧
      ¬ closedLength exTables .w16 .S 60) := by decide +kernel

/-- XformOddLengthFaults: the lengths 1 and 255 under a capacity of 256, with nothing loaded. -/
theorem witness_XformOddLengthFaults :
    ((exLength 1).len.toNat ≤ (exLength 1).cfg.cap.val ∧ (exLength 1).len.toNat % 2 = 1) ∧
    ((exLength 255).len.toNat ≤ (exLength 255).cfg.cap.val ∧ (exLength 255).len.toNat % 2 = 1) := by decide +kernel

/-- EmptyBufferCommands, DetectOnEmptyBuffer. -/
theorem witness_empty : (exLength 0).len = 0#32 := by decide

/-- TransformRoundTrip and DetectScrambledImage: a plaintext image and the machine that holds its transform. -/
theorem witness_holdsOutputOf_8 :
    holdsOutputOf (xformOf .w8 .S) exJv (copied .xform8S exJv) ∧
    holdsOutputOf .xform8S exJp (copied .xform8S exJp) ∧
    holdsOutputOf (xformOf .w8 .D) exJv63 (copied .xform8D exJv63) :=
  ⟨⟨after .xform8S exJv, rfl, by decide +kernel, rfl, rfl, rfl⟩,
    ⟨after .xform8S exJp, rfl, by decide +kernel, rfl, rfl, rfl⟩,
    ⟨after .xform8D exJv63, rfl, by decide +kernel, rfl, rfl, rfl⟩⟩

/-- The same at width 16; the width-8 trial of the scrambled SRX image does not match (`witness_outcomes_D`). -/
theorem witness_holdsOutputOf_16 :
    holdsOutputOf .xform16S exSrx (copied .xform16S exSrx) ∧
    holdsOutputOf (xformOf .w16 .D) ex55 (copied .xform16D ex55) :=
  ⟨⟨after .xform16S exSrx, rfl, by decide +kernel, rfl, rfl, rfl⟩,
    ⟨after .xform16D ex55, rfl, by decide +kernel, rfl, rfl, rfl⟩⟩

/-- DetectScrambledImage: the images of the three types have their header bytes. -/
theorem witness_DetectScrambledImage :
    15 ≤ exJv.len.toNat ∧ (imageHas exJv 0 sigRoland ∧ imageHas exJv 0xC tagSrjv80) ∧ imageHas exJp 0 sigJp800 ∧
    (imageHas exSrx 0 sigRoland ∧ imageHas exSrx 0xC tagSrx) := by decide +kernel

/-- RunRoundTrip: a width-8 image and a width-16 one, each with its scrambled copy. -/
theorem witness_RunRoundTrip :
    (completesAs .runS exJv (after .runS exJv) ∧ (after .runS exJv).engine = .done ∧
      romtypeWidth (after .runS exJv).romtype = .w8 ∧ holdsOutputOf .runS exJv (copied .runS exJv)) ∧
    (completesAs .runS exSrx (after .runS exSrx) ∧ (after .runS exSrx).engine = .done ∧
      romtypeWidth (after .runS exSrx).romtype = .w16 ∧ holdsOutputOf .runS exSrx (copied .runS exSrx) ∧
      ¬ showsSrjv80 (copied .runS exSrx) .D ∧ ¬ showsJp800 (copied .runS exSrx) .D) :=
  ⟨⟨rfl, by decide +kernel, by decide +kernel, after .runS exJv, rfl, by decide +kernel, rfl, rfl, rfl⟩,
    ⟨rfl, by decide +kernel, by decide +kernel, ⟨after .runS exSrx, rfl, by decide +kernel, rfl, rfl, rfl⟩,
      by decide +kernel, by decide +kernel⟩⟩

/-- BlockMultiplesAreClosed: no block, and the most blocks a length can hold. -/
theorem witness_BlockMultiplesAreClosed :
    0 * 2 ^ addrSpan .w8 < 2 ^ 32 ∧ 8191 * 2 ^ addrSpan .w8 < 2 ^ 32 ∧ 16383 * 2 ^ addrSpan .w16 < 2 ^ 32 := by
  decide +kernel

/-- ClosedInBothDirections: the largest length, and a closed one with its last visited position. -/
theorem witness_ClosedInBothDirections : 4294967295 < 2 ^ 32 ∧ visited .w8 63 62 ∧ visited .w16 64 62 := by decide

/-- UnloadedInputRefused: nothing loaded at length 1; all but the last byte loaded at length 64; width 16 at length 2. -/
theorem witness_UnloadedInputRefused :
    ((exLength 1).len.toNat ≤ (exLength 1).cfg.cap.val ∧ closedLength exTables .w8 .S (exLength 1).len.toNat ∧
      closedLength exTables .w8 .D (exLength 1).len.toNat ∧ ¬ inputLoaded (exLength 1)) ∧
    (closedLength exTables .w8 .S 64 ∧ ¬ inputLoaded { exJv63 with len := 64#32 }) ∧
    (closedLength exTables .w16 .S 2 ∧ closedLength exTables .w16 .D 2 ∧
      ¬ inputLoaded { exImage .little [3#8] with len := 2#32 }) := by decide +kernel

/-- UnloadedHeaderRefused: nothing loaded at length 1, in each direction, at the width-8 trial. -/
theorem witness_UnloadedHeaderRefused_8 :
    (exLength 1).len.toNat ≤ (exLength 1).cfg.cap.val ∧
    headerByteUnloaded (exLength 1) .S .w8 ∧ headerByteUnloaded (exLength 1) .D .w8 :=
  ⟨by decide +kernel, ⟨0, by decide, by decide +kernel, rfl⟩, ⟨0, by decide, by decide +kernel, by decide +kernel, rfl⟩⟩

/-- UnloadedHeaderRefused: the width-8 trial of direction D reads its nine bytes and finds no type; the width-16 trial needs
the word at 0x2C for offset 0xE (V45), which is not loaded. -/
theorem witness_UnloadedHeaderRefused_16 :
    ¬ showsSrjv80 { ex55 with ib := ex55.ib.filter (fun c => c.1 != 0x2C) } .D ∧
    ¬ showsJp800 { ex55 with ib := ex55.ib.filter (fun c => c.1 != 0x2C) } .D ∧
    headerByteUnloaded { ex55 with ib := ex55.ib.filter (fun c => c.1 != 0x2C) } .D .w16 :=
  ⟨by decide +kernel, by decide +kernel, 0xE, by decide, by decide +kernel, by decide +kernel, .inl (by decide +kernel)⟩

/-- LengthAboveCapacityRefused: one byte too many. -/
theorem witness_LengthAboveCapacityRefused : (exLength 257).cfg.cap.val < (exLength 257).len.toNat := by decide

/-- RunIsDetectThenXform: a detection that found a type, in each direction; the second length is not closed. -/
theorem witness_RunIsDetectThenXform :
    (completesAs .detectD (copied .xform8S exJv) (after .detectD (copied .xform8S exJv)) ∧
      romtypeType (after .detectD (copied .xform8S exJv)).romtype ≠ .unknown) ∧
    (completesAs .detectS (exImage .little (imageSrx.take 15)) (after .detectS (exImage .little (imageSrx.take 15))) ∧
      romtypeType (after .detectS (exImage .little (imageSrx.take 15))).romtype ≠ .unknown) :=
  ⟨⟨rfl, by decide +kernel⟩, ⟨rfl, by decide +kernel⟩⟩

/-- StepRunsDecodedCommand, ReservedByteRaisesIllegalCommand: the host has nothing pending, or waits. -/
theorem witness_engineMovesNext :
    engineMovesNext (exReset.withFetchWord 8 0x24) ∧ decode (exReset.withFetchWord 8 0x24).cmd = .ok .xform8S ∧
    engineMovesNext { exReset.withFetchWord 8 0x13 with host := [.wait] } ∧
    decode (exReset.withFetchWord 8 0x13).cmd = .error .reservedWidth :=
  ⟨⟨by decide +kernel, .inl rfl⟩, rfl, ⟨by decide +kernel, .inr ⟨[], rfl⟩⟩, rfl⟩

/-- HostWritesWhenReady: a state IDLE and a state DONE with a write of each kind pending. -/
theorem witness_HostWritesWhenReady :
    ({ exReset with host := [.writeReg 0 0x21#32] } : State).engine = .idle ∧
    (∀ i ∈ [0, 1, 2, 3, 4, 16, 17], ({ exReset with status := 0x02#8, host := [.writeReg i 5#32] } : State).engine
      = .done) := by decide +kernel

/-- HostWritesWhileBusyRefused, and the highest address that exists. -/
theorem witness_HostWritesWhileBusyRefused :
    ({ exLength 1 with host := [.writeReg 2 5#32] } : State).engine = .busy ∧
    ({ exLength 1 with host := [.writeIB 255#32 5#8] } : State).engine = .busy ∧
    (255#32).toNat < (exLength 1).cfg.cap.val := by decide +kernel

/-- HostReadsWhenNotBusy: both buffers hold the byte at the highest address that exists. -/
theorem witness_HostReadsWhenNotBusy :
    ({ exReset with ib := [(255, 1#8)], ob := [(255, 2#8)] } : State).engine ≠ .busy ∧
    (255#32).toNat < exReset.cfg.cap.val ∧ memRead [(255, 1#8)] (255#32).toNat = some 1#8 ∧
    memRead [(255, 2#8)] (255#32).toNat = some 2#8 := by decide +kernel

/-- ByteRegisterReads: a state DONE with each read pending; the highest index is 16. -/
theorem witness_ByteRegisterReads : ∀ e ∈ [HostEvent.readReg 1, .readReg 5, .readReg 8, .readReg 16, .wait],
    ({ exReset with status := 0x02#8, host := [e] } : State).engine ≠ .busy := by decide +kernel

/-- HostReadsWhileBusy: a state BUSY with each kind of command in flight, and one with a reserved byte. -/
theorem witness_HostReadsWhileBusy :
    (∀ e ∈ [HostEvent.readIB 255#32, .readReg 0, .readReg 1, .readReg 2, .readReg 3, .readReg 4, .readReg 5, .readReg 8,
        .readReg 16, .readReg 17, .readOB 255#32],
      ({ exLength 1 with ib := [(255, 1#8)], host := [e] } : State).engine = .busy) ∧
    (255#32).toNat < (exLength 1).cfg.cap.val ∧ memRead [(255, 1#8)] (255#32).toNat = some 1#8 ∧
    inFlight { exLength 1 with cmd := 0x21#8 } resWriters ∧ inFlight { exLength 1 with cmd := 0x05#8 } detectors :=
  ⟨by decide +kernel, by decide +kernel, by decide +kernel, ⟨.pdata8S, by decide, rfl⟩, ⟨.runD, by decide, rfl⟩⟩

/-- HostReadsWhileBusy, the commands that do not write: XFORM.8.S writes neither `RES` nor `ROMTYPE`. -/
theorem witness_HostReadsWhileBusy_other :
    ¬ inFlight { exLength 1 with cmd := 0x24#8 } resWriters ∧ ¬ inFlight { exLength 1 with cmd := 0x24#8 } detectors := by
  constructor <;> (rintro ⟨i, hi, h⟩; cases h; revert hi; decide)

/-- HostReadsWhileBusy, `FPOS` and `FADDR`: a state BUSY that meets the invariant. -/
theorem witness_HostReadsWhileBusy_inv : ({ exLength 1 with host := [.readReg 6] } : State).Inv ∧
    ({ exLength 1 with host := [.readReg 6] } : State).engine = .busy := by
  refine ⟨?_, by decide +kernel⟩
  constructor <;> decide +kernel

/-- R25, R28, R139: while XFORM.8.S is in flight `RES`, `ROMTYPE`, `FPOS` and a `DIAG` register read as they are held. -/
theorem test_host_reads_busy :
    ([4, 5, 6, 16].map fun i => (nextOf (hostReadReg i
      { exLength 1 with cmd := 0x24#8, res := 7#32, romtype := 0x93#8, diag := exReset.diag.set 8 0x58#8 })).map State.rdata)
      = [some (.reg 7#32), some (.reg 0x93#32), some (.reg 0#32), some (.reg 0x58#32)] := by decide +kernel

/-- ReadOnlyWritesWhileBusyIgnored: `STATUS`, `RES`, the last index and one beyond. -/
theorem witness_ReadOnlyWritesWhileBusyIgnored : ∀ i ∈ [1, 4, 16, 17],
    ({ exLength 1 with host := [.writeReg i 5#32] } : State).engine = .busy ∧ i ≠ 0 ∧ i ≠ 2 ∧ i ≠ 3 := by decide +kernel

/-- HostLoadsInput: IDLE and DONE, the highest address that exists. -/
theorem witness_HostLoadsInput :
    ({ exReset with host := [.writeIB 255#32 7#8] } : State).engine = .idle ∧
    ({ exReset with status := 0x02#8, host := [.writeIB 255#32 7#8] } : State).engine = .done ∧
    (255#32).toNat < exReset.cfg.cap.val := by decide +kernel

/-- HostAccessesThatStop: the lowest address that does not exist and the highest that does, with no byte loaded. -/
theorem witness_HostAccessesThatStop :
    exReset.cfg.cap.val ≤ (256#32).toNat ∧ (255#32).toNat < exReset.cfg.cap.val ∧ exReset.engine ≠ .busy ∧
    memRead exReset.ib 255 = none ∧ memRead exReset.ob 255 = none := by decide +kernel

/-- A machine in FAULT after P4 step 4: a BoundsFault at position 1. -/
def exFaulted : State := after .xform8S (exImage .little (List.replicate 16 3#8))

/-- FaultIsSticky, FaultIgnoresRegisterWrites: a host action other than reset in FAULT has a next state. -/
theorem witness_FaultIsSticky :
    exFaulted.engine = .fault ∧
    step { exFaulted with host := [.writeReg 2 0x40#32] } = .next exFaulted ∧
    step { exFaulted with host := [.writeIB 0#32 9#8] } = .next { exFaulted with ib := memWrite exFaulted.ib 0 9#8 } :=
  ⟨by decide +kernel, rfl, rfl⟩

/-- ResetInput: reset is pending in each of the four engine states. -/
theorem witness_ResetInput :
    (∀ st ∈ [0x00#8, 0x01#8, 0x02#8, 0x43#8], ({ exReset with status := st, host := [.reset] } : State).host =
      .reset :: []) ∧
    engineState 0x00#8 = .idle ∧ engineState 0x01#8 = .busy ∧ engineState 0x02#8 = .done ∧
    engineState 0x43#8 = .fault := by decide +kernel

/-- IdleEngineKeepsState: an engine that is not BUSY, with nothing pending. -/
theorem witness_IdleEngineKeepsState : exReset.engine ≠ .busy ∧ exReset.host = [] := by decide +kernel

/-- CommandsKeepTheirOperands, CommandsEndInDoneOrFault, NoWriteAtOrAboveLength: a command of each ending. -/
theorem witness_CommandsEndInDoneOrFault :
    (exec .xform8S exJv63 = .next (after .xform8S exJv63) ∧ (after .xform8S exJv63).engine = .done) ∧
    (exec .xform16S (exLength 1) = .next (after .xform16S (exLength 1)) ∧
      (after .xform16S (exLength 1)).engine = .fault) ∧
    (exec .runS ex55 = .next (after .runS ex55) ∧ (after .runS ex55).engine = .fault) ∧
    (exec .xform8S (exImage .little (List.replicate 16 3#8)) = .next exFaulted ∧ exFaulted.engine = .fault) :=
  ⟨⟨rfl, by decide +kernel⟩, ⟨rfl, by decide +kernel⟩, ⟨rfl, by decide +kernel⟩, ⟨rfl, by decide +kernel⟩⟩

/-- StepKeepsInvariant, ConfigurationNeverChanges: a step that ends in a BoundsFault, from a state that meets the
invariant. -/
theorem witness_StepKeepsInvariant :
    (exImage .little (List.replicate 16 3#8)).Inv ∧
    step { exImage .little (List.replicate 16 3#8) with cmd := 0x24#8 } = .next { exFaulted with cmd := 0x24#8 } := by
  refine ⟨?_, rfl⟩
  constructor <;> decide +kernel

/-- And the state after that fault meets the invariant too, its last four clauses included. -/
theorem witness_fault_state_inv : exFaulted.Inv := by constructor <;> decide +kernel

end Sys2Proof.Tests
end

/-! SUPPORT. Who moves next, read off the state (spec/10_state.md R21, spec/30_encoding.md R86), and what the host's
reads and writes of the register file answer (R20 to R24, R41). -/
section
namespace Sys2Proof.Machine
open Sys2Proof.Claims

/-- The host yields exactly when it has nothing pending or waits (R86). -/
theorem hostYields_iff (s : State) : hostYields s = true ↔ s.host = [] ∨ ∃ rest, s.host = .wait :: rest := by
  unfold hostYields
  split
  next hnil => simp [hnil]
  next rest hwait => simp [hwait]
  next hnil hwait => simpa using ⟨hnil, hwait⟩

/-- On the engine's move, a step is that move (R21, R205). -/
theorem step_of_engineMovesNext {s : State} (h : engineMovesNext s) : step s = engineMove s := by
  simp [step, moveNext, h.1, (hostYields_iff s).2 h.2]

/-- On the host's move, a step is the oldest pending action. -/
theorem step_of_host {s : State} {e : HostEvent} {rest : List HostEvent} (hh : s.host = e :: rest)
    (hw : s.engine = .busy → e ≠ .wait) : step s = hostAct e { s with host := rest } := by
  rcases step_cases s with ⟨hb, hy, _⟩ | ⟨_, hnil, _⟩ | ⟨e', rest', hh', _, hs⟩
  · rcases (hostYields_iff s).1 hy with hnil | ⟨rest', hwait⟩
    · simp [hnil] at hh
    · exact absurd (List.cons.inj (hh.symm.trans hwait)).1 (hw hb)
  · simp [hnil] at hh
  · obtain ⟨rfl, rfl⟩ := List.cons.inj (hh'.symm.trans hh)
    exact hs

/-- Outside a command, whatever the host has pending comes next. -/
theorem step_of_host_of_not_busy {s : State} {e : HostEvent} {rest : List HostEvent} (hb : s.engine ≠ .busy)
    (hh : s.host = e :: rest) : step s = hostAct e { s with host := rest } :=
  step_of_host hh fun h => absurd h hb

/-- A write of an index other than those of `CMD`, `LEN` and `OPA` stores nothing (R20). -/
theorem regWriteReady_readOnly {i : Nat} (h0 : i ≠ 0) (h2 : i ≠ 2) (h3 : i ≠ 3) (v : Word) (s : State) :
    regWriteReady i v s = s := by
  simp [regWriteReady]

/-- Everything a register write outside a command can do: start the engine, store `LEN` or `OPA`, or nothing (R20 to
R24). -/
theorem regWriteReady_cases (i : Nat) (v : Word) (s : State) :
    (i = 0 ∧ regWriteReady i v s = ({ s with cmd := v.setWidth 8 } : State).setEngine .busy) ∨
    (i = 2 ∧ regWriteReady i v s = { s with len := v }) ∨
    (i = 3 ∧ regWriteReady i v s = { s with opa := v }) ∨
    regWriteReady i v s = s := by
  by_cases h0 : i = 0
  · subst h0
    exact .inl ⟨rfl, rfl⟩
  by_cases h2 : i = 2
  · subst h2
    exact .inr (.inl ⟨rfl, rfl⟩)
  by_cases h3 : i = 3
  · subst h3
    exact .inr (.inr (.inl ⟨rfl, rfl⟩))
  · exact .inr (.inr (.inr (regWriteReady_readOnly h0 h2 h3 v s)))

/-- `CMD`, `LEN` and `OPA` are the only registers a host can write (R198). -/
theorem isWritableReg_eq_false {i : Nat} (h0 : i ≠ 0) (h2 : i ≠ 2) (h3 : i ≠ 3) : isWritableReg i = false := by
  simp [isWritableReg, h0, h2, h3]

/-- In IDLE and DONE a register write takes effect (R20). -/
theorem hostAct_writeReg_of_ready {s : State} (hr : s.engine = .idle ∨ s.engine = .done) (i : Nat) (v : Word) :
    hostAct (.writeReg i v) s = .next (regWriteReady i v s) := by
  rcases hr with h | h <;> simp [hostAct, hostWriteReg, h]

/-- While BUSY the write of a register the host cannot write is ignored (R20, R22). -/
theorem hostAct_writeReg_of_busy {s : State} (hb : s.engine = .busy) {i : Nat} (hi : isWritableReg i = false)
    (v : Word) : hostAct (.writeReg i v) s = .next s := by
  simp [hostAct, hostWriteReg, hb, hi]

/-- Outside a command a register read answers what the register holds (R20). -/
theorem hostAct_readReg_of_not_busy {s : State} (hb : s.engine ≠ .busy) (i : Nat) :
    hostAct (.readReg i) s = .next { s with rdata := .reg (regValue s i) } := by
  simp [hostAct, hostReadReg, hb]

/-- Outside a command a pending register read comes next, and changes only the host's latch (R20). -/
theorem step_readReg_of_not_busy {s : State} {rest : List HostEvent} {i : Nat} (hb : s.engine ≠ .busy)
    (hh : s.host = .readReg i :: rest) :
    step s = .next { s with host := rest, rdata := .reg (regValue s i) } :=
  (step_of_host_of_not_busy hb hh).trans (hostAct_readReg_of_not_busy (s := { s with host := rest }) hb i)

/-- An index outside the table reads 0 (R20). -/
theorem regValue_of_ge {i : Nat} (hi : 17 ≤ i) (s : State) : regValue s i = 0#32 := by
  obtain ⟨k, rfl⟩ := Nat.exists_eq_add_of_le' hi
  simp [regValue]

/-- The index of a `DIAG` register reads its byte, zero-extended (R29). -/
theorem regValue_diag (s : State) (k : Fin 9) : regValue s (8 + k.val) = (s.diag[k.val]).setWidth 32 := by
  rw [Nat.add_comm]
  simp [regValue]

/-- A read of a byte of `IB` that holds a value answers it, at any time (R38, R57). -/
theorem hostAct_readIB_of_some {s : State} {a : Word} {b : Byte} (ha : a.toNat < s.cfg.cap.val)
    (hm : memRead s.ib a.toNat = some b) : hostAct (.readIB a) s = .next { s with rdata := .byte b } := by
  simp [hostAct, hostReadIB, ha, hm]

/-- Outside a command a read of a byte of `OB` that holds a value answers it (R38). -/
theorem hostAct_readOB_of_some {s : State} {a : Word} {b : Byte} (hb : s.engine ≠ .busy)
    (ha : a.toNat < s.cfg.cap.val) (hm : memRead s.ob a.toNat = some b) :
    hostAct (.readOB a) s = .next { s with rdata := .byte b } := by
  simp [hostAct, hostReadOB, hb, ha, hm]

/-- Outside a command a write of a byte of `IB` stores it (R38, R50). -/
theorem hostAct_writeIB_of_not_busy {s : State} {a : Word} (hb : s.engine ≠ .busy) (ha : a.toNat < s.cfg.cap.val)
    (b : Byte) : hostAct (.writeIB a b) s = .next { s with ib := memWrite s.ib a.toNat b } := by
  simp [hostAct, hostWriteIB, hb, ha]

/-- The address port is the address function of the selected width and direction (R41). -/
theorem busPorts_addr (tab : TableSet) (aIn : Word) (dIn : BitVec 16) (selW selD : Bool) :
    (busPorts tab aIn dIn selW selD).1 = permuteAddr tab (widthOfBit selW) (dirOfBit selD) aIn := by
  cases selW <;> cases selD <;> rfl

/-- The data port, zero-extended, is the data function of the selected width and direction on the low bits of the port
input (R41). -/
theorem busPorts_data (tab : TableSet) (aIn : Word) (dIn : BitVec 16) (selW selD : Bool) :
    (busPorts tab aIn dIn selW selD).2.setWidth 32 =
      (permuteData tab (widthOfBit selW) (dirOfBit selD)
        ((dIn.setWidth 32).setWidth (widthOfBit selW).bits)).setWidth 32 := by
  have hin : ∀ n ≤ 16, (dIn.setWidth 32).setWidth n = dIn.setWidth n := fun n hn =>
    BitVec.setWidth_setWidth_of_le dIn (by omega)
  have hout : ∀ x : BitVec 8, (x.setWidth 16).setWidth 32 = x.setWidth 32 := fun x =>
    BitVec.setWidth_setWidth (by omega)
  cases selW with
  | false => cases selD <;> exact (hout _).trans (by rw [hin _ (by decide)]; rfl)
  | true =>
    have hid : (dIn.setWidth 32).setWidth 16 = dIn := (hin 16 le_rfl).trans (BitVec.setWidth_eq dIn)
    cases selD <;> exact congrArg (fun v : BitVec 16 => (permuteData tab .w16 _ v).setWidth 32) hid.symm

end Sys2Proof.Machine
end

/-! SUPPORT. What a command leaves unchanged and how it ends (spec/60_exceptions.md R170 to R178). -/
section
namespace Sys2Proof.Machine

/-- The transform changes neither the configuration nor `ROMTYPE` (R37, R157). -/
theorem xformBody_frame {w : Width} {d : Dir} {s t : State} (h : xformBody w d s = .next t) :
    t.cfg = s.cfg ∧ t.romtype = s.romtype := by
  rcases xformBody_next h with ⟨_, rfl⟩ | ⟨_, ob', rfl, _⟩ | ⟨_, m, _, _, rfl⟩ <;> simp

/-- No command changes the configuration (R37). -/
theorem exec_cfg {i : Instr} {s t : State} (h : exec i s = .next t) : t.cfg = s.cfg := by
  rcases exec_next h with ⟨_, _, _, _, rfl⟩ | ⟨_, _, _, _, _, rfl⟩ | ⟨w, d, _, _, hx⟩ |
    ⟨_, _, _, _, _, ⟨_, rfl⟩ | ⟨_, hx⟩⟩
  · simp
  · simp
  · exact (xformBody_frame hx).1
  · simp
  · exact (xformBody_frame hx).1.trans (latchDetection_cfg ..)

/-- A register write keeps the configuration (R37). -/
theorem regWriteReady_cfg (i : Nat) (v : Word) (s : State) : (regWriteReady i v s).cfg = s.cfg := by
  rcases regWriteReady_cases i v s with ⟨_, he⟩ | ⟨_, he⟩ | ⟨_, he⟩ | he <;> rw [he]
  simp

/-- No host action, reset included, changes the configuration (R37, R190). -/
theorem hostAct_cfg {e : HostEvent} {s t : State} (h : hostAct e s = .next t) : t.cfg = s.cfg := by
  rcases hostAct_next h with ⟨i, v, _, _, rfl⟩ | ⟨_, _, _, _, rfl⟩ | ⟨_, _, _, _, _, rfl⟩ |
    ⟨_, _, _, _, _, _, rfl⟩ | ⟨_, rfl⟩
  · exact regWriteReady_cfg i v s
  all_goals rfl

/-- The engine's move keeps the configuration (R37). -/
theorem engineMove_cfg {s t : State} (h : engineMove s = .next t) : t.cfg = s.cfg := by
  rcases engineMove_cases s with ⟨i, _, he⟩ | ⟨_, _, he⟩ <;> rw [he] at h
  · exact exec_cfg h
  · cases h
    simp

/-- An odd length is a LengthFault at width 16 only (R156). -/
theorem width_of_odd {w : Width} {n : Nat} (h : n % w.bytes ≠ 0) : w = .w16 ∧ n % 2 = 1 := by
  cases w with
  | w8 => exact absurd (Nat.mod_one n) h
  | w16 => exact ⟨rfl, Nat.mod_two_ne_zero.1 h⟩

/-- A position the loop visits, as a word below `LEN` (R152). -/
theorem ofNat_lt_of_visited {w : Width} {len : Word} {m : Nat} (h : visited w len.toNat m) :
    BitVec.ofNat 32 m < len := by
  rw [BitVec.lt_def, toNat_ofNat_lt (h.1.trans len.isLt)]
  exact h.1

/-- How the transform ends: in DONE; in a LengthFault at width 16; or in a BoundsFault that records the position and
its permuted address and leaves `OB` empty (R150, R173, R175, R178). -/
theorem xformBody_ends {w : Width} {d : Dir} {s t : State} (h : xformBody w d s = .next t) :
    (t.engine = .done ∧ causeField t.status = causeField s.status) ∨
    (t.engine = .fault ∧ causeField t.status = Cause.lengthFault.code ∧ s.len.toNat % 2 = 1 ∧ t.ob = s.ob ∧
      w = .w16) ∨
    (t.engine = .fault ∧ causeField t.status = Cause.boundsFault.code ∧ t.fpos < s.len ∧ s.len ≤ t.faddr ∧
      t.pos = t.fpos ∧ (∀ a, memRead t.ob a = none) ∧ t.faddr = permuteAddr s.cfg.tab w d t.fpos) := by
  rcases xformBody_next h with ⟨hodd, rfl⟩ | ⟨_, ob', rfl, _⟩ | ⟨_, m, hm, hle, rfl⟩
  · obtain ⟨hw, hlen⟩ := width_of_odd hodd
    exact .inr (.inl (by simp [hlen, hw]))
  · exact .inl (by simp)
  · have hpos := ofNat_lt_of_visited hm
    have hadr := BitVec.le_def.2 hle
    exact .inr (.inr (by simp [hpos, hadr]))

/-- SRX is the only type of width 16 (R27). -/
theorem RomType.eq_srx_of_width {r : RomType} (h : r.width = .w16) : r = .srx := by
  cases r with
  | srx => rfl
  | unknown | jp800 | srjv80 => cases h

/-- What a detection of no type leaves in `ROMTYPE` (R27, R174). -/
theorem latchDetection_romtype_of_unknown {c : Config} {len : Word} {ib : Memory} {d : Dir} {r : Detection}
    (hr : detect c len ib d = .ok r) (hu : r.rom = .unknown) (s : State) :
    (latchDetection r s).romtype = 0x80#8 := by
  rw [latchDetection_romtype, detect_width hr, hu]
  rfl

/-- What a detection at width 16 leaves in `ROMTYPE` (R27). -/
theorem latchDetection_romtype_of_w16 {c : Config} {len : Word} {ib : Memory} {d : Dir} {r : Detection}
    (hr : detect c len ib d = .ok r) (hw : r.width = .w16) (s : State) :
    (latchDetection r s).romtype = 0x93#8 := by
  rw [latchDetection_romtype, hw, RomType.eq_srx_of_width ((detect_width hr).symm.trans hw)]
  rfl

end Sys2Proof.Machine
end

/-! SUPPORT. The invariant under each update of the state, then under each kind of step. -/
section
namespace Sys2Proof.Machine
variable {s t : State}

/-- Outside FAULT no cause is recorded (R22). -/
theorem State.Inv.cause_eq_zero (hs : s.Inv) (he : s.engine ≠ .fault) : causeField s.status = 0#4 :=
  not_not.1 fun h => he (hs.cause_iff.2 h)

/-- Outside FAULT `FPOS` and `FADDR` are 0 (R28). -/
theorem State.Inv.bounds_eq_zero (hs : s.Inv) (he : s.engine ≠ .fault) : s.fpos = 0#32 ∧ s.faddr = 0#32 :=
  hs.bounds_regs (by simp [hs.cause_eq_zero he])

/-! The invariant says nothing of the host's side, of `CMD`, `OPA` and `RES`. -/

theorem State.Inv.after_host (hs : s.Inv) (rest : List HostEvent) : ({ s with host := rest } : State).Inv := { hs with }

theorem State.Inv.after_read (hs : s.Inv) (r : HostData) (n : Nat) : ({ s with rdata := r, draws := n } : State).Inv :=
  { hs with }

theorem State.Inv.after_cmd (hs : s.Inv) (b : Byte) : ({ s with cmd := b } : State).Inv := { hs with }

theorem State.Inv.after_opa (hs : s.Inv) (v : Word) : ({ s with opa := v } : State).Inv := { hs with }

theorem State.Inv.after_writeRes (hs : s.Inv) (v : Word) : (writeRes v s).Inv := { hs with }

/-- `LEN` is free outside FAULT; in FAULT the clauses of BoundsFault and LengthFault speak of it. -/
theorem State.Inv.after_len (hs : s.Inv) (he : s.engine ≠ .fault) (v : Word) : ({ s with len := v } : State).Inv :=
  { hs with
    bounds_fault := by simp [hs.cause_eq_zero he]
    length_fault := by simp [hs.cause_eq_zero he] }

/-- A host write of a byte below the capacity (R50). -/
theorem State.Inv.after_writeIB (hs : s.Inv) {a : Nat} (ha : a < s.cfg.cap.val) (b : Byte) :
    ({ s with ib := memWrite s.ib a b } : State).Inv :=
  { hs with
    ib_wf := wf_memWrite _ _ _ hs.ib_wf
    ib_below := by
      intro c hc
      rcases mem_memWrite _ _ _ _ hc with rfl | hc
      · exact ha
      · exact hs.ib_below c hc }

/-- `STATUS.STATE` moves among IDLE, BUSY and DONE. -/
theorem State.Inv.after_setEngine (hs : s.Inv) (he : s.engine ≠ .fault) {e : EngineState} (hne : e ≠ .fault) :
    (s.setEngine e).Inv :=
  { hs with
    status_reserved := by simpa using hs.status_reserved
    cause_legal := by simpa using hs.cause_legal
    cause_iff := by simp [hne, hs.cause_eq_zero he]
    bounds_regs := by simpa using hs.bounds_regs
    bounds_fault := by simpa using hs.bounds_fault
    format_error := by simpa using hs.format_error
    length_fault := by simpa using hs.length_fault }

theorem State.Inv.after_complete (hs : s.Inv) (he : s.engine ≠ .fault) : (complete s).Inv :=
  hs.after_setEngine he (by decide)

/-- The legal pairs of type and width are legal values of `ROMTYPE` (R27). -/
theorem romtypeByte_legal (r : RomType) : romtypeByte r r.width ∈ romtypeValues := by
  cases r <;> decide

/-- A detection latches a legal `ROMTYPE` (R27, R130). -/
theorem State.Inv.after_latchDetection (hs : s.Inv) (he : s.engine ≠ .fault) {d : Dir} {r : Detection}
    (hr : detect s.cfg s.len s.ib d = .ok r) : (latchDetection r s).Inv :=
  { hs with
    romtype_legal := by
      rw [latchDetection_romtype, detect_width hr]
      exact romtypeByte_legal r.rom
    format_error := by simp [hs.cause_eq_zero he] }

/-- A completed transform writes below `LEN` only: an aligned unit whose first byte is below an aligned length lies
below it (R117, R157). -/
theorem LoopWrote.below {c : Config} {w : Width} {d : Dir} {len : Word} {ib ob ob' : Memory} {n k cap : Nat}
    (hw : LoopWrote c w d len ib n k ob ob') (hlen : len.toNat % w.bytes = 0) (hk : n + k * w.bytes ≤ 2 ^ 32)
    (hcap : len.toNat ≤ cap) (hob : ob.below cap) : ob'.below cap := by
  intro e he
  rcases hw.listed e he with h | ⟨m, hm1, hm2, hm3, hin⟩
  · exact hob e h
  · have hlt := hw.bounded m hm1 hm2 hm3
    have hal := permutedPos_aligned c w d (by omega) hm3
    obtain ⟨_, hend⟩ := hin
    cases w <;> simp only [Width.bytes] at * <;> omega

/-- A transform replaces `OB` and `POS`. -/
theorem State.Inv.after_output (hs : s.Inv) (he : s.engine ≠ .fault) (p : Word) {ob' : Memory} (hwf : ob'.wf = true)
    (hbelow : ob'.below s.cfg.cap.val) : ({ s with pos := p, ob := ob' } : State).Inv :=
  { hs with
    ob_wf := hwf
    ob_below := hbelow
    bounds_fault := by simp [hs.cause_eq_zero he] }

/-- The codes of the four faults are 1 to 4 (R170). -/
theorem Cause.code_legal (c : Cause) : c.code ≠ 0#4 ∧ c.code.toNat ≤ 4 := by
  cases c <;> decide

/-- The codes tell the faults apart (R170). -/
theorem Cause.code_injective : Function.Injective Cause.code := by
  intro a b
  cases a <;> cases b <;> decide

/-- `STATUS.CAUSE` after a fault names that fault (R178). -/
theorem cause_of_raiseFault {c c' : Cause} (h : causeField (raiseFault c s).status = c'.code) : c = c' :=
  Cause.code_injective (by simpa using h)

/-- A fault that is no BoundsFault, raised outside FAULT where its own clause holds (R172 to R174). -/
theorem State.Inv.after_raiseFault (hs : s.Inv) (he : s.engine ≠ .fault) {c : Cause} (hc : c ≠ .boundsFault)
    (hformat : c = .formatError → s.romtype = 0x80#8) (hlength : c = .lengthFault → s.len.getLsbD 0 = true) :
    (raiseFault c s).Inv where
  ib_wf := by simpa using hs.ib_wf
  ob_wf := by simpa [hc] using hs.ob_wf
  ib_below := by simpa using hs.ib_below
  ob_below := by simpa [hc] using hs.ob_below
  status_reserved := by simpa using hs.status_reserved
  cause_legal := by simpa using c.code_legal.2
  cause_iff := by simpa using c.code_legal.1
  romtype_legal := by simpa using hs.romtype_legal
  bounds_regs := by simpa using fun _ => hs.bounds_eq_zero he
  bounds_fault h := absurd (cause_of_raiseFault (c' := .boundsFault) h) hc
  format_error h := by simpa using hformat (cause_of_raiseFault (c' := .formatError) h)
  length_fault h := by simpa using hlength (cause_of_raiseFault (c' := .lengthFault) h)

/-- A BoundsFault, raised with a position below `LEN` and an address not below it (R175, R178). -/
theorem State.Inv.after_boundsFault (hs : s.Inv) {i a : Word} (hi : i < s.len) (ha : s.len ≤ a) :
    (raiseFault .boundsFault { s with pos := i, fpos := i, faddr := a }).Inv where
  ib_wf := hs.ib_wf
  ob_wf := rfl
  ib_below := hs.ib_below
  ob_below := by simp [memEmpty]
  status_reserved := by simpa using hs.status_reserved
  cause_legal := by simpa using Cause.boundsFault.code_legal.2
  cause_iff := by simpa using Cause.boundsFault.code_legal.1
  romtype_legal := hs.romtype_legal
  bounds_regs := by simp [Cause.code]
  bounds_fault := by simp [hi, ha]
  format_error := by simp [Cause.code]
  length_fault := by simp [Cause.code]

/-- The reset state of a machine meets the invariant (R42, R190). -/
theorem resetMachine_inv (s : State) : (resetMachine s).Inv := by
  have hengine : (resetMachine s).engine = .idle := rfl
  have hcause : causeField 0#8 = 0#4 := by decide
  exact {
    ib_wf := rfl
    ob_wf := rfl
    ib_below := by simp
    ob_below := by simp
    status_reserved := by simp
    cause_legal := by simp [hcause]
    cause_iff := by simp [hengine, hcause]
    romtype_legal := by simp [romtypeValues]
    bounds_regs := by simp
    bounds_fault := by simp [hcause]
    format_error := by simp [hcause]
    length_fault := by simp [hcause] }

/-- The transform keeps the invariant. -/
theorem xformBody_keeps_inv {w : Width} {d : Dir} (hs : s.Inv) (he : s.engine ≠ .fault)
    (hc : s.len.toNat ≤ s.cfg.cap.val) (h : xformBody w d s = .next t) : t.Inv := by
  rcases xformBody_next h with ⟨hodd, rfl⟩ | ⟨hev, ob', rfl, hw⟩ | ⟨_, m, hm, hle, rfl⟩
  · obtain ⟨rfl, _⟩ := width_of_odd hodd
    exact hs.after_raiseFault he (by decide) (by simp) fun _ => (oddLength_iff .w16 s.len).2 hodd
  · have hbelow : ob'.below s.cfg.cap.val :=
      hw.below hev (by have := iterations_mul w s.len hev; omega) hc hs.ob_below
    exact (hs.after_output he s.len (hw.keepsWf hs.ob_wf) hbelow).after_complete he
  · exact hs.after_boundsFault (ofNat_lt_of_visited hm) (BitVec.le_def.2 hle)

/-- Every command that starts outside FAULT keeps the invariant. -/
theorem exec_keeps_inv {i : Instr} (hs : s.Inv) (he : s.engine ≠ .fault) (h : exec i s = .next t) : t.Inv := by
  rcases exec_next h with ⟨v, _, _, _, rfl⟩ | ⟨d, r, _, _, hr, rfl⟩ | ⟨w, d, _, hc, hx⟩ |
    ⟨d, r, _, hc, hr, ⟨hu, rfl⟩ | ⟨_, hx⟩⟩
  · exact (hs.after_writeRes v).after_complete he
  · exact (hs.after_latchDetection he hr).after_complete he
  · exact xformBody_keeps_inv hs he hc hx
  · exact (hs.after_latchDetection he hr).after_raiseFault he (by decide)
      (fun _ => latchDetection_romtype_of_unknown hr hu s) (by simp)
  · exact xformBody_keeps_inv (hs.after_latchDetection he hr) he hc hx

/-- The engine's move keeps the invariant. -/
theorem engineMove_keeps_inv (hs : s.Inv) (he : s.engine ≠ .fault) (h : engineMove s = .next t) : t.Inv := by
  rcases engineMove_cases s with ⟨i, _, hm⟩ | ⟨_, _, hm⟩ <;> rw [hm] at h
  · exact exec_keeps_inv hs he h
  · cases h
    exact hs.after_raiseFault he (by decide) (by simp) (by simp)

/-- A register write outside FAULT keeps the invariant. -/
theorem regWriteReady_keeps_inv (hs : s.Inv) (he : s.engine ≠ .fault) (i : Nat) (v : Word) :
    (regWriteReady i v s).Inv := by
  rcases regWriteReady_cases i v s with ⟨_, hw⟩ | ⟨_, hw⟩ | ⟨_, hw⟩ | hw <;> rw [hw]
  · exact (hs.after_cmd (v.setWidth 8)).after_setEngine (e := .busy) he (by decide)
  · exact hs.after_len he v
  · exact hs.after_opa v
  · exact hs

/-- Every host action keeps the invariant. -/
theorem hostAct_keeps_inv {e : HostEvent} (hs : s.Inv) (h : hostAct e s = .next t) : t.Inv := by
  rcases hostAct_next h with ⟨i, v, _, hr, rfl⟩ | ⟨_, _, _, _, rfl⟩ | ⟨_, b, _, ha, _, rfl⟩ |
    ⟨r, n, _, _, _, _, rfl⟩ | ⟨_, rfl⟩
  · exact regWriteReady_keeps_inv hs (by rcases hr with h | h <;> simp [h]) i v
  · exact hs
  · exact hs.after_writeIB ha b
  · exact hs.after_read r n
  · exact resetMachine_inv s

end Sys2Proof.Machine
end

/-! The statements about the state, settled. -/
section
namespace Sys2Proof.Proofs
open Sys2Proof.Machine Sys2Proof.Claims

/-- Settles O59: the engine's move, the host's action and the idle step each keep the invariant. -/
theorem stepKeepsInvariant : Obligations.StepKeepsInvariant := by
  intro s t hs h
  rcases step_cases s with ⟨hb, _, he⟩ | ⟨_, _, he⟩ | ⟨e, rest, _, _, he⟩ <;> rw [he] at h
  · exact engineMove_keeps_inv hs (by simp [hb]) h
  · cases h
    exact hs
  · exact hostAct_keeps_inv (hs.after_host rest) h

/-- Settles O56, by what each command can do and how the transform ends. -/
theorem commandsEndInDoneOrFault : Obligations.CommandsEndInDoneOrFault := by
  intro i s t h
  rcases exec_next h with ⟨_, _, _, _, rfl⟩ | ⟨_, _, _, _, _, rfl⟩ | ⟨w, d, rfl, _, hx⟩ |
    ⟨d, r, rfl, _, hr, ⟨hu, rfl⟩ | ⟨hu, hx⟩⟩
  · exact .inl (by simp)
  · exact .inl (by simp)
  · rcases xformBody_ends hx with hdone | ⟨hf, hc, hlen, hob, rfl⟩ | ⟨hf, hc, hpos, hadr, hp, hob, hpa⟩
    · exact .inl hdone
    · exact .inr ⟨hf, .inl ⟨hc, hlen, hob, .inl (by cases d <;> simp [xformOf])⟩⟩
    · exact .inr ⟨hf, .inr (.inr ⟨hc, hpos, hadr, hp, hob, w, d, hpa, .inl rfl⟩)⟩
  · refine .inr ⟨engine_raiseFault .., .inr (.inl ⟨by simp, by cases d <;> simp [runOf], ?_, by simp⟩)⟩
    rw [raiseFault_romtype, latchDetection_romtype_of_unknown hr hu]
  · have hrom := (xformBody_frame hx).2
    rcases xformBody_ends hx with hdone | ⟨hf, hc, hlen, hob, hw⟩ | ⟨hf, hc, hpos, hadr, hp, hob, hpa⟩
    · exact .inl hdone
    · exact .inr ⟨hf, .inl ⟨hc, hlen, hob,
        .inr ⟨by cases d <;> simp [runOf], hrom.trans (latchDetection_romtype_of_w16 hr hw s)⟩⟩⟩
    · exact .inr ⟨hf, .inr (.inr ⟨hc, hpos, hadr, hp, hob, r.width, d, hpa,
        .inr ⟨rfl, by simpa [hrom] using hu, by simp [hrom]⟩⟩)⟩

/-- Settles O58. -/
theorem configurationNeverChanges : Obligations.ConfigurationNeverChanges := by
  intro s t h
  rcases step_cases s with ⟨_, _, he⟩ | ⟨_, _, he⟩ | ⟨e, rest, _, _, he⟩ <;> rw [he] at h
  · exact engineMove_cfg h
  · cases h
    rfl
  · exact hostAct_cfg (s := { s with host := rest }) h

/-- Settles O17: the two ports are the two permutation functions on the port inputs. -/
theorem portsAgreeWithCommands : Obligations.PortsAgreeWithCommands := by
  intro s rest aIn dIn selW selD hh
  refine ⟨_, _, step_of_host hh (by simp), _, _, exec_paddrOf .., ?_, exec_pdataOf .., ?_⟩
  · exact (busPorts_addr ..).symm
  · exact (busPorts_data ..).symm

/-- Settles O39. -/
theorem stepRunsDecodedCommand : Obligations.StepRunsDecodedCommand := by
  intro s i hm hd
  rw [step_of_engineMovesNext hm]
  simp [engineMove, fetchCommand, hd]

/-- Settles O41. -/
theorem hostWritesWhenReady : Obligations.HostWritesWhenReady := by
  intro s rest i v hr hh
  have hstep : step s = .next (regWriteReady i v { s with host := rest }) := by
    rw [step_of_host hh (by simp)]
    exact hostAct_writeReg_of_ready (s := { s with host := rest }) hr i v
  refine ⟨?_, ?_, ?_, ?_⟩
  · rintro rfl
    exact hstep
  · rintro rfl
    exact hstep
  · rintro rfl
    exact hstep
  · intro h0 h2 h3
    rw [hstep, regWriteReady_readOnly h0 h2 h3]

/-- Settles O43. -/
theorem readOnlyWritesWhileBusyIgnored : Obligations.ReadOnlyWritesWhileBusyIgnored := by
  intro s rest i v hb h0 h2 h3 hh
  rw [step_of_host hh (by simp)]
  exact hostAct_writeReg_of_busy (s := { s with host := rest }) hb (isWritableReg_eq_false h0 h2 h3) v

/-- Settles O44. -/
theorem hostReadsWhenNotBusy : Obligations.HostReadsWhenNotBusy := by
  intro s rest hb
  refine ⟨step_readReg_of_not_busy hb, step_readReg_of_not_busy hb, step_readReg_of_not_busy hb,
    step_readReg_of_not_busy hb, step_readReg_of_not_busy hb, step_readReg_of_not_busy hb, ?_, ?_, ?_⟩
  · intro i hi hh
    rw [step_readReg_of_not_busy hb hh, regValue_of_ge hi]
  · intro a b ha hm hh
    rw [step_of_host_of_not_busy hb hh]
    exact hostAct_readIB_of_some ha hm
  · intro a b ha hm hh
    rw [step_of_host_of_not_busy hb hh]
    exact hostAct_readOB_of_some hb ha hm

/-- Settles O45. -/
theorem byteRegisterReads : Obligations.ByteRegisterReads := by
  intro s rest hb
  refine ⟨step_readReg_of_not_busy hb, step_readReg_of_not_busy hb, ?_, step_of_host_of_not_busy hb⟩
  intro k hh
  rw [step_readReg_of_not_busy hb hh, regValue_diag]

/-- Settles O47, by read after write of a buffer memory. -/
theorem hostLoadsInput : Obligations.HostLoadsInput := by
  intro s rest a b hr ha hh
  have hb : s.engine ≠ .busy := by rcases hr with h | h <;> simp [h]
  refine ⟨memWrite s.ib a.toNat b, ?_, memRead_memWrite_same .., fun x hx => memRead_memWrite_other _ b hx.symm⟩
  rw [step_of_host_of_not_busy hb hh]
  exact hostAct_writeIB_of_not_busy (s := { s with host := rest }) hb ha b

/-- Settles O52. -/
theorem resetValues : Obligations.ResetValues := by
  refine ⟨rfl, rfl, rfl, rfl, rfl, rfl, rfl, rfl, rfl, ?_, rfl, memRead_nil, memRead_nil⟩
  decide

/-- Settles O60: `State.reset` is what the reset input makes of it. -/
theorem resetMeetsInvariant : Obligations.ResetMeetsInvariant := resetMachine_inv State.reset

end Sys2Proof.Proofs
end

/-! SUPPORT. The frame of a command (spec/20_memory.md R57, R61) and the bytes of `OB` a completed one leaves
(spec/43_rom_transform.md R154, R157). -/
section
namespace Sys2Proof.Machine
open Sys2Proof.Claims

/-- The transform changes `STATUS`, `POS`, `FPOS`, `FADDR` and `OB` only (R157, R158, R178). -/
theorem xformBody_changes_only {w : Width} {d : Dir} {s t : State} (h : xformBody w d s = .next t) :
    t = { s with status := t.status, pos := t.pos, fpos := t.fpos, faddr := t.faddr, ob := t.ob } := by
  rcases xformBody_next h with ⟨_, rfl⟩ | ⟨_, _, rfl, _⟩ | ⟨_, _, _, _, rfl⟩ <;> rfl

/-- No command changes any other part of the state than these (R57, R158). -/
theorem exec_changes_only {i : Instr} {s t : State} (h : exec i s = .next t) :
    t = { s with status := t.status, res := t.res, romtype := t.romtype, diag := t.diag
                 pos := t.pos, fpos := t.fpos, faddr := t.faddr, ob := t.ob } := by
  rcases exec_next h with ⟨_, _, _, _, rfl⟩ | ⟨_, _, _, _, _, rfl⟩ | ⟨_, _, _, _, hx⟩ |
    ⟨_, _, _, _, _, ⟨_, rfl⟩ | ⟨_, hx⟩⟩
  · rfl
  · rfl
  · rw [xformBody_changes_only hx]
  · rfl
  · rw [xformBody_changes_only hx]
    rfl

/-- PDATA and PADDR of every width and direction write `RES` (R25). -/
theorem mem_resWriters (w : Width) (d : Dir) : pdataOf w d ∈ resWriters ∧ paddrOf w d ∈ resWriters := by
  cases w <;> cases d <;> decide

/-- Only PDATA and PADDR write `RES` (R25). -/
theorem exec_res {i : Instr} {s t : State} (h : exec i s = .next t) (hi : i ∉ resWriters) : t.res = s.res := by
  rcases exec_next h with ⟨_, w, d, rfl | rfl, _⟩ | ⟨_, _, _, _, _, rfl⟩ | ⟨_, _, _, _, hx⟩ |
    ⟨_, _, _, _, _, ⟨_, rfl⟩ | ⟨_, hx⟩⟩
  · exact absurd (mem_resWriters w d).1 hi
  · exact absurd (mem_resWriters w d).2 hi
  · rfl
  · rw [xformBody_changes_only hx]
  · rfl
  · rw [xformBody_changes_only hx]
    rfl

/-- The unit at an aligned permuted address below an aligned length lies wholly below that length (R52, R117). -/
theorem lt_of_inUnit (c : Config) {w : Width} {d : Dir} {L m x : Nat} (hL : L % w.bytes = 0) (hm : m < 2 ^ 32)
    (ha : m % w.bytes = 0) (hlt : permutedPos c.tab w d m < L) (hx : inUnit c.tab w d m x) : x < L := by
  have hp := permutedPos_aligned c w d hm ha
  obtain ⟨_, hend⟩ := hx
  cases w <;> simp only [Width.bytes] at * <;> omega

/-- A transform that completes its loop over a whole number of units writes no byte at or above `LEN` (R154, R157). -/
theorem LoopWrote.memRead_of_ge {c : Config} {w : Width} {d : Dir} {len : Word} {ib ob ob' : Memory} {n k x : Nat}
    (hw : LoopWrote c w d len ib n k ob ob') (hlen : len.toNat % w.bytes = 0) (hk : n + k * w.bytes ≤ 2 ^ 32)
    (hx : len.toNat ≤ x) : memRead ob' x = memRead ob x := by
  refine hw.untouched x fun m h1 h2 ha hin => ?_
  have hlt := lt_of_inUnit c hlen (by omega) ha (hw.bounded m h1 h2 ha) hin
  omega

/-- A transform that ends in DONE keeps every byte of `OB` at or above `LEN` (R157). -/
theorem xformBody_ob_of_ge {w : Width} {d : Dir} {s t : State} (h : xformBody w d s = .next t)
    (hdone : t.engine = .done) {x : Nat} (hx : s.len.toNat ≤ x) : memRead t.ob x = memRead s.ob x := by
  rcases xformBody_next h with ⟨_, rfl⟩ | ⟨hev, ob', rfl, hw⟩ | ⟨_, _, _, _, rfl⟩
  · simp at hdone
  · have hit := iterations_mul w s.len hev
    exact hw.memRead_of_ge hev (by omega) hx
  · simp at hdone

end Sys2Proof.Machine
end

/-! SUPPORT. What the host reads while a command executes (spec/20_memory.md R57, R61 b; spec/70_reset_and_hazards.md
R199, R200), and where a buffer access stops (R39, R50, R203). -/
section
namespace Sys2Proof.Machine
open Sys2Proof.Claims
variable {s : State} {rest : List HostEvent}

/-- `RES` is written by PDATA and PADDR, `ROMTYPE` and `DIAG0..8` by DETECT and RUN, and no command writes another
register while BUSY (R25, R27 to R29). -/
theorem writesReg_iff (c : Instr) (i : Nat) :
    writesReg c i = true ↔ i = 4 ∧ c ∈ resWriters ∨ isDetectionReg i = true ∧ c ∈ detectors := by
  cases c <;> simp [writesReg]

/-- A register is written by the command in flight when the latched byte decodes to a command that writes it (R21). -/
theorem inFlightWrites_iff (i : Nat) (s : State) :
    inFlightWrites i s = true ↔ ∃ c, decode s.cmd = .ok c ∧ writesReg c i = true := by
  cases h : decode s.cmd <;> simp [inFlightWrites, fetchCommand, h]

/-- `RES` is in flight with PDATA and PADDR (R25). -/
theorem inFlightWrites_res_iff (s : State) : inFlightWrites 4 s = true ↔ inFlight s resWriters := by
  simp only [inFlightWrites_iff, writesReg_iff, inFlight, isDetectionReg]
  simp [and_comm]

/-- `ROMTYPE` and `DIAG0..8` are in flight with DETECT and RUN (R27, R29). -/
theorem inFlightWrites_detection_iff {i : Nat} (hi : isDetectionReg i = true) (s : State) :
    inFlightWrites i s = true ↔ inFlight s detectors := by
  have h4 : i ≠ 4 := by rintro rfl; cases hi
  simp only [inFlightWrites_iff, writesReg_iff, hi, h4, inFlight, false_and, false_or, true_and, and_comm]

/-- No command in flight writes any other register (R20, R28). -/
theorem not_inFlightWrites {i : Nat} (h4 : i ≠ 4) (hi : isDetectionReg i = false) (s : State) :
    ¬ inFlightWrites i s = true := by
  simp [inFlightWrites_iff, writesReg_iff, h4, hi]

/-- The indices of `DIAG0..8` (R29). -/
theorem isDetectionReg_diag (k : Fin 9) : isDetectionReg (8 + k.val) = true := by
  revert k
  decide

/-- The indices outside the table are no `DIAG` registers (R20). -/
theorem isDetectionReg_of_ge {i : Nat} (hi : 17 ≤ i) : isDetectionReg i = false := by
  simp only [isDetectionReg, Bool.or_eq_false_iff, beq_eq_false_iff_ne, decide_eq_false_iff_not]
  omega

/-- A pending read of a register that no command in flight writes comes next and answers what the register holds
(R57). -/
theorem step_readReg_of_held {i : Nat} (hw : ¬ inFlightWrites i s = true) (hh : s.host = .readReg i :: rest) :
    step s = .next { s with host := rest, rdata := .reg (regValue s i) } := by
  rw [step_of_host hh (by simp)]
  rcases hostReadReg_cases i { s with host := rest } with ⟨_, he⟩ | ⟨_, hw', _⟩
  · exact he
  · exact absurd hw' hw

/-- While BUSY a pending read of a register that the command in flight writes comes next and draws a free value
(R61 b). -/
theorem step_readReg_of_inFlight (hb : s.engine = .busy) {i : Nat} (hw : inFlightWrites i s = true)
    (hh : s.host = .readReg i :: rest) :
    step s = .next { s with host := rest, rdata := .reg (freeReg i s), draws := s.draws + 1 } := by
  rw [step_of_host hh (by simp)]
  rcases hostReadReg_cases i { s with host := rest } with ⟨hn, _⟩ | ⟨_, _, he⟩
  · exact absurd ⟨hb, hw⟩ hn
  · exact he

/-- The free value of a `DIAG` register is a byte, zero-extended (R29, R61 b). -/
theorem freeReg_diag (k : Fin 9) (s : State) : freeReg (8 + k.val) s = (Config.freeByte s.draws).setWidth 32 := by
  unfold freeReg
  split
  next h => omega
  next h => omega
  next => rfl

/-- `FPOS` and `FADDR` read 0 outside FAULT (R28). -/
theorem State.Inv.regValue_bounds (hs : s.Inv) (he : s.engine ≠ .fault) {i : Nat} (hi : i = 6 ∨ i = 7) :
    regValue s i = 0#32 := by
  obtain ⟨hpos, hadr⟩ := hs.bounds_eq_zero he
  rcases hi with rfl | rfl
  · exact hpos
  · exact hadr

/-- While BUSY a read of a byte of `OB` draws a free byte (R200). -/
theorem hostAct_readOB_of_busy {a : Word} (hb : s.engine = .busy) (ha : a.toNat < s.cfg.cap.val) :
    hostAct (.readOB a) s =
      .next { s with rdata := .byte (Config.freeByte s.draws), draws := s.draws + 1 } := by
  simp [hostAct, hostReadOB, hb, ha]

/-- No byte of a buffer exists at or above `CAP`, for the host's write of `IB` (R50). -/
theorem hostAct_writeIB_of_ge {a : Word} (ha : s.cfg.cap.val ≤ a.toNat) (b : Byte) :
    hostAct (.writeIB a b) s = .fault (.noSuchBufferByte a) := by
  simp [hostAct, hostWriteIB, ha]

/-- No byte of a buffer exists at or above `CAP`, for the host's read of `IB` (R50). -/
theorem hostAct_readIB_of_ge {a : Word} (ha : s.cfg.cap.val ≤ a.toNat) :
    hostAct (.readIB a) s = .fault (.noSuchBufferByte a) := by
  simp [hostAct, hostReadIB, ha]

/-- No byte of a buffer exists at or above `CAP`, for the host's read of `OB` (R50). -/
theorem hostAct_readOB_of_ge {a : Word} (ha : s.cfg.cap.val ≤ a.toNat) :
    hostAct (.readOB a) s = .fault (.noSuchBufferByte a) := by
  simp [hostAct, hostReadOB, ha]

/-- A read of a byte of `IB` that holds no value is refused, at any time (R39). -/
theorem hostAct_readIB_of_none {a : Word} (ha : a.toNat < s.cfg.cap.val) (hm : memRead s.ib a.toNat = none) :
    hostAct (.readIB a) s = .refused (.inputByteWithoutValue a.toNat) := by
  simp [hostAct, hostReadIB, ha, hm]

/-- Outside a command a read of a byte of `OB` that holds no value is refused (R203). -/
theorem hostAct_readOB_of_none {a : Word} (hb : s.engine ≠ .busy) (ha : a.toNat < s.cfg.cap.val)
    (hm : memRead s.ob a.toNat = none) :
    hostAct (.readOB a) s = .refused (.outputByteWithoutValue a.toNat) := by
  simp [hostAct, hostReadOB, hb, ha, hm]

end Sys2Proof.Machine
end

/-! SUPPORT. A unit written and read back, and the bytes of a written word (spec/20_memory.md R53). -/
section
namespace Sys2Proof.Machine

/-- A unit is read back as it was written (R53). -/
@[simp] theorem readUnit_writeUnit (o : WordOrder) (m : Memory) (a : Nat) (w : Width) (v : BitVec w.bits) :
    readUnit o (writeUnit o m a w v) a w = .ok v := by
  rw [readUnit_ok_iff]
  intro j hj
  rw [memRead_writeUnit, if_pos (by omega), Nat.add_sub_cancel_left]

/-- The byte of a written word at its lower address (R53). -/
theorem memRead_writeUnit_word_low (o : WordOrder) (m : Memory) (a : Nat) (v : BitVec 16) :
    memRead (writeUnit o m a .w16 v) a = some (wordByte o false v) := by
  simp [memRead_writeUnit, unitByte]

/-- The byte of a written word at its upper address (R53). -/
theorem memRead_writeUnit_word_high (o : WordOrder) (m : Memory) (a : Nat) (v : BitVec 16) :
    memRead (writeUnit o m a .w16 v) (a + 1) = some (wordByte o true v) := by
  simp [memRead_writeUnit, unitByte]

/-- The write of a word leaves every other byte as it was (R53). -/
theorem memRead_writeUnit_word_other (o : WordOrder) (m : Memory) {a x : Nat} (v : BitVec 16) (h0 : x ≠ a)
    (h1 : x ≠ a + 1) : memRead (writeUnit o m a .w16 v) x = memRead m x := by
  rw [memRead_writeUnit, if_neg (by simp only [Width.bytes]; omega)]

end Sys2Proof.Machine
end

/-! The statements about the buffers and who may touch them, settled. -/
section
namespace Sys2Proof.Proofs
open Sys2Proof.Machine Sys2Proof.Claims

/-- Settles O55, from the frame of a command. -/
theorem commandsKeepTheirOperands : Obligations.CommandsKeepTheirOperands := by
  intro i s t h
  have hother : i ∈ [Instr.detectD, .detectS, .xform8D, .xform16D, .xform8S, .xform16S, .runD, .runS] →
      i ∉ resWriters := by
    cases i <;> decide
  have hres : i ∉ resWriters → t.res = s.res := exec_res h
  rw [exec_changes_only h]
  exact ⟨rfl, rfl, rfl, rfl, rfl, rfl, rfl, rfl, fun hi => hres (hother hi)⟩

/-- Settles O57: only a transform writes `OB`, and it writes whole units below `LEN`. -/
theorem noWriteAtOrAboveLength : Obligations.NoWriteAtOrAboveLength := by
  intro i s t h hdone a ha
  rcases exec_next h with ⟨_, _, _, _, rfl⟩ | ⟨_, _, _, _, _, rfl⟩ | ⟨_, _, _, _, hx⟩ |
    ⟨_, r, _, _, _, ⟨_, rfl⟩ | ⟨_, hx⟩⟩
  · simp
  · simp
  · exact xformBody_ob_of_ge hx hdone ha
  · simp
  · exact xformBody_ob_of_ge (s := latchDetection r s) hx hdone ha

/-- Settles O46: every register is held or in flight, and the command in flight says which. -/
theorem hostReadsWhileBusy : Obligations.HostReadsWhileBusy := by
  intro s rest hb
  have hheld : ∀ {i}, i ≠ 4 → isDetectionReg i = false → s.host = .readReg i :: rest →
      step s = .next { s with host := rest, rdata := .reg (regValue s i) } :=
    fun h4 hi => step_readReg_of_held (not_inFlightWrites h4 hi s)
  refine ⟨?readIB, hheld (by decide) rfl, hheld (by decide) rfl, hheld (by decide) rfl, hheld (by decide) rfl,
    ?outside, ?bounds, ?resHeld, ?romtypeHeld, ?diagHeld, ?resFree, ?romtypeFree, ?diagFree, ?readOB⟩
  case readIB =>
    intro a b ha hm hh
    rw [step_of_host hh (by simp)]
    exact hostAct_readIB_of_some ha hm
  case outside =>
    intro i hi hh
    rw [hheld (by omega) (isDetectionReg_of_ge hi) hh, regValue_of_ge hi]
  case bounds =>
    intro hs i hi hh
    rw [hheld (by omega) (by rcases hi with rfl | rfl <;> rfl) hh, hs.regValue_bounds (by simp [hb]) hi]
  case resHeld =>
    intro hn
    exact step_readReg_of_held (mt (inFlightWrites_res_iff s).1 hn)
  case romtypeHeld =>
    intro hn
    exact step_readReg_of_held (mt (inFlightWrites_detection_iff rfl s).1 hn)
  case diagHeld =>
    intro hn k hh
    rw [step_readReg_of_held (mt (inFlightWrites_detection_iff (isDetectionReg_diag k) s).1 hn) hh, regValue_diag]
  case resFree =>
    intro hf hh
    exact ⟨_, step_readReg_of_inFlight hb ((inFlightWrites_res_iff s).2 hf) hh⟩
  case romtypeFree =>
    intro hf hh
    exact ⟨_, List.mem_cons.2 (freeRomtype_mem s.romtype _),
      step_readReg_of_inFlight hb ((inFlightWrites_detection_iff rfl s).2 hf) hh⟩
  case diagFree =>
    intro hf k hh
    refine ⟨Config.freeByte s.draws, ?_⟩
    rw [step_readReg_of_inFlight hb ((inFlightWrites_detection_iff (isDetectionReg_diag k) s).2 hf) hh, freeReg_diag]
  case readOB =>
    intro a ha hh
    refine ⟨Config.freeByte s.draws, ?_⟩
    rw [step_of_host hh (by simp)]
    exact hostAct_readOB_of_busy (s := { s with host := rest }) hb ha

/-- Settles O48. -/
theorem hostAccessesThatStop : Obligations.HostAccessesThatStop := by
  intro s rest a
  refine ⟨fun ha => ⟨?_, ?_, ?_⟩, fun ha => ⟨?_, ?_⟩⟩
  · intro b hh
    rw [step_of_host hh (by simp)]
    exact hostAct_writeIB_of_ge (s := { s with host := rest }) ha b
  · intro hh
    rw [step_of_host hh (by simp)]
    exact hostAct_readIB_of_ge (s := { s with host := rest }) ha
  · intro hh
    rw [step_of_host hh (by simp)]
    exact hostAct_readOB_of_ge (s := { s with host := rest }) ha
  · intro hm hh
    rw [step_of_host hh (by simp)]
    exact hostAct_readIB_of_none (s := { s with host := rest }) ha hm
  · intro hb hm hh
    rw [step_of_host_of_not_busy hb hh]
    exact hostAct_readOB_of_none (s := { s with host := rest }) hb ha hm

/-- Settles O54, by what a written word leaves at each address. -/
theorem wordOrderOfBytes : Obligations.WordOrderOfBytes := by
  intro m a v
  exact ⟨memRead_writeUnit_word_low .little m a v, memRead_writeUnit_word_high .little m a v,
    memRead_writeUnit_word_low .big m a v, memRead_writeUnit_word_high .big m a v,
    fun o => readUnit_writeUnit o m a .w16 v, fun o _ h0 h1 => memRead_writeUnit_word_other o m v h0 h1⟩

end Sys2Proof.Proofs
end

/-! SUPPORT. The decoder read through the fields of the byte, and the encoder beside it (spec/30_encoding.md R80 to R84,
R89). -/
section
namespace Sys2Proof

/-- The fields `OP`, `W` and `D` of a command byte (R80). -/
def byteFields (b : Byte) : CmdFields := { op := opField b, w := wField b, d := dField b }

/-- Every command has the round trip of its row (R89). -/
theorem roundTrip (i : Instr) : Laws.RoundTrip.Statement i := by
  cases i
  exacts [Laws.RoundTrip.pdata8D, Laws.RoundTrip.pdata16D, Laws.RoundTrip.pdata8S, Laws.RoundTrip.pdata16S,
    Laws.RoundTrip.paddr8D, Laws.RoundTrip.paddr16D, Laws.RoundTrip.paddr8S, Laws.RoundTrip.paddr16S,
    Laws.RoundTrip.detectD, Laws.RoundTrip.detectS, Laws.RoundTrip.xform8D, Laws.RoundTrip.xform16D,
    Laws.RoundTrip.xform8S, Laws.RoundTrip.xform16S, Laws.RoundTrip.runD, Laws.RoundTrip.runS]

theorem decode_encode (i : Instr) : decode (encode i) = .ok i := (roundTrip i).2.1

theorem encode_injective : Function.Injective encode := fun i j h =>
  Except.ok.inj ((decode_encode i).symm.trans ((congrArg decode h).trans (decode_encode j)))

theorem fields_pdataOf (w d : Bool) : (pdataOf (widthOfBit w) (dirOfBit d)).fields = ⟨1#4, w, d⟩ := by
  cases w <;> cases d <;> rfl

theorem fields_paddrOf (w d : Bool) : (paddrOf (widthOfBit w) (dirOfBit d)).fields = ⟨2#4, w, d⟩ := by
  cases w <;> cases d <;> rfl

theorem fields_xformOf (w d : Bool) : (xformOf (widthOfBit w) (dirOfBit d)).fields = ⟨4#4, w, d⟩ := by
  cases w <;> cases d <;> rfl

theorem fields_detectOf (d : Bool) : (detectOf (dirOfBit d)).fields = ⟨3#4, false, d⟩ := by
  cases d <;> rfl

theorem fields_runOf (d : Bool) : (runOf (dirOfBit d)).fields = ⟨5#4, false, d⟩ := by
  cases d <;> rfl

/-- What the decoder answers, branch by branch: a command with the byte's own fields and clear high bits, or an error
with a high bit set or with fields that R81 or R82 rules out. -/
theorem decode_cases (b : Byte) :
    (∃ i, decode b = .ok i ∧ b &&& 0xC0#8 = 0#8 ∧ i.fields = byteFields b) ∨
    (∃ e, decode b = .error e ∧ (b &&& 0xC0#8 ≠ 0#8 ∨ (byteFields b).wellFormed = false)) := by
  unfold decode byteFields
  split_ifs with hhigh h1 h2 h3 hw h4 h5 hw
  · exact .inr ⟨_, rfl, .inl hhigh⟩
  · exact .inl ⟨_, rfl, not_not.1 hhigh, by rw [fields_pdataOf, h1]⟩
  · exact .inl ⟨_, rfl, not_not.1 hhigh, by rw [fields_paddrOf, h2]⟩
  · exact .inr ⟨_, rfl, .inr (by rw [h3, hw]; rfl)⟩
  · exact .inl ⟨_, rfl, not_not.1 hhigh, by rw [fields_detectOf, h3, Bool.eq_false_iff.2 hw]⟩
  · exact .inl ⟨_, rfl, not_not.1 hhigh, by rw [fields_xformOf, h4]⟩
  · exact .inr ⟨_, rfl, .inr (by rw [h5, hw]; rfl)⟩
  · exact .inl ⟨_, rfl, not_not.1 hhigh, by rw [fields_runOf, h5, Bool.eq_false_iff.2 hw]⟩
  · have hop : ¬ (1 ≤ (opField b).toNat ∧ (opField b).toNat ≤ 5) := by bv_omega
    exact .inr ⟨_, rfl, .inr (by simp [CmdFields.wellFormed, CmdFields.opDefined, hop])⟩

/-- The opcode map is the layout of R80: bits 7:6 zero, then `D`, `W` and `OP`. -/
theorem encode_eq_layout (i : Instr) :
    encode i = 0#2 ++ BitVec.ofBool i.fields.d ++ BitVec.ofBool i.fields.w ++ i.fields.op := by
  cases i <;> rfl

/-- A byte with clear high bits is the layout of its own fields (R80). -/
theorem layout_byteFields {b : Byte} (h : b &&& 0xC0#8 = 0#8) :
    0#2 ++ BitVec.ofBool (byteFields b).d ++ BitVec.ofBool (byteFields b).w ++ (byteFields b).op = b := by
  revert b
  decide +kernel

/-- The high bits are clear exactly when bit 7 and bit 6 are. -/
theorem highBits_ne_zero_iff (b : Byte) : b &&& 0xC0#8 ≠ 0#8 ↔ b.getLsbD 7 = true ∨ b.getLsbD 6 = true := by
  revert b
  decide +kernel

theorem encode_of_decode {b : Byte} {i : Instr} (h : decode b = .ok i) : encode i = b := by
  rcases decode_cases b with ⟨j, hj, hhigh, hfields⟩ | ⟨e, he, _⟩
  · obtain rfl : j = i := Except.ok.inj (hj.symm.trans h)
    rw [encode_eq_layout, hfields, layout_byteFields hhigh]
  · simp [he] at h

theorem decode_eq_ok_iff (b : Byte) (i : Instr) : decode b = .ok i ↔ encode i = b :=
  ⟨encode_of_decode, fun h => h ▸ decode_encode i⟩

/-- The decoder refuses exactly the bytes with a high bit set or with fields that encode no operation (R84). -/
theorem decode_error_iff (b : Byte) :
    (∃ e, decode b = .error e) ↔ b &&& 0xC0#8 ≠ 0#8 ∨ (byteFields b).wellFormed = false := by
  rcases decode_cases b with ⟨i, hi, hhigh, hfields⟩ | ⟨e, he, hbad⟩
  · have hwf : (byteFields b).wellFormed = true := hfields ▸ (roundTrip i).1
    simp [hi, hhigh, hwf]
  · simp only [he, Except.error.injEq, exists_eq', true_iff]
    exact hbad

theorem opField_toNat (b : Byte) : (opField b).toNat = b.toNat % 16 := by
  simp [opField, BitVec.extractLsb'_toNat]

/-- The fields R84 rules out: an `OP` outside 1 to 5, or `W` set where R82 asks for 0. -/
theorem byteFields_not_wellFormed_iff (b : Byte) :
    (byteFields b).wellFormed = false ↔
      (b.toNat % 16 = 0 ∨ 6 ≤ b.toNat % 16) ∨ ((b.toNat % 16 = 3 ∨ b.toNat % 16 = 5) ∧ b.getLsbD 4 = true) := by
  simp only [CmdFields.wellFormed, CmdFields.opDefined, CmdFields.widthAllowed, byteFields, Bool.and_eq_false_iff,
    decide_eq_false_iff_not, Bool.not_eq_false', Bool.and_eq_true, Bool.or_eq_true, beq_iff_eq, ← BitVec.toNat_inj,
    opField_toNat, wField, BitVec.toNat_ofNat]
  rw [and_comm (a := b.getLsbD 4 = true)]
  refine or_congr ?_ Iff.rfl
  omega

/-- The bytes that decode are the bytes of the opcode map (R89). -/
theorem decode_isOk_iff (b : Byte) : (decode b).isOk = true ↔ ∃ i, encode i = b := by
  simp only [← decode_eq_ok_iff]
  cases decode b <;> simp [Except.isOk, Except.toBool]

theorem mem_allInstrs (i : Instr) : i ∈ allInstrs := by
  cases i <;> decide

/-- The byte values that decode, in order, are a rearrangement of the opcode map. -/
theorem decodable_perm_opcodeMap :
    ((List.range 256).filter fun n => (decode (BitVec.ofNat 8 n)).isOk).Perm
      (allInstrs.map fun i => (encode i).toNat) := by
  have hmap : (allInstrs.map fun i => (encode i).toNat).Nodup :=
    List.Nodup.map (fun i j h => encode_injective (BitVec.eq_of_toNat_eq h)) (by decide)
  refine (List.perm_ext_iff_of_nodup (List.nodup_range.filter _) hmap).2 fun n => ?_
  simp only [List.mem_filter, List.mem_range, decode_isOk_iff, List.mem_map, mem_allInstrs, true_and]
  constructor
  · rintro ⟨hn, i, hi⟩
    exact ⟨i, by rw [hi, BitVec.toNat_ofNat, Nat.mod_eq_of_lt hn]⟩
  · rintro ⟨i, rfl⟩
    exact ⟨(encode i).isLt, i, by simp⟩

end Sys2Proof

namespace Sys2Proof.Machine

/-- A reserved byte makes the engine's move IllegalCommand (R84, R172). -/
theorem engineMove_of_error {s : State} {e : DecodeError} (h : decode s.cmd = .error e) :
    engineMove s = .next (raiseFault .illegalCommand s) := by
  rcases engineMove_cases s with ⟨i, hi, _⟩ | ⟨_, _, hm⟩
  · simp [h] at hi
  · exact hm

end Sys2Proof.Machine
end

/-! SUPPORT. The mask form of a table and the arrays the converter accepts (spec/30_encoding.md R71, R72, R77). -/
section
namespace Sys2Proof.Machine

/-- The positions of the set bits of the entries the scan reads: the destinations R72 takes from an array. -/
def maskBits (T : List Word) : List Nat := (maskPrefix T).map fun m => m.toNat.log2

theorem oneBit_iff (m : Word) : oneBit m = true ↔ ∃ k, k < 32 ∧ m = BitVec.twoPow 32 k := by
  simp [oneBit]

theorem toNat_twoPow_of_lt {p : Nat} (hp : p < 32) : (BitVec.twoPow 32 p).toNat = 2 ^ p := by
  rw [BitVec.toNat_twoPow, Nat.mod_eq_of_lt (Nat.pow_lt_pow_right (by decide) hp)]

theorem twoPow_ne_zero {p : Nat} (hp : p < 32) : BitVec.twoPow 32 p ≠ 0#32 := by
  intro h
  have := congrArg BitVec.toNat h
  simp [toNat_twoPow_of_lt hp] at this

theorem log2_twoPow {p : Nat} (hp : p < 32) : (BitVec.twoPow 32 p).toNat.log2 = p := by
  rw [toNat_twoPow_of_lt hp, Nat.log2_two_pow]

/-- The set bit of a single-bit entry is the destination it stands for. -/
theorem eq_of_getLsbD_twoPow {p a : Nat} (h : (BitVec.twoPow 32 p).getLsbD a = true) : p = a := by
  simp only [BitVec.getLsbD_twoPow, Bool.and_eq_true, decide_eq_true_eq] at h
  exact h.2

theorem bijective_iff (t : PairTable) : t.bijective = true ↔ (∀ p ∈ t.pi, p < t.span) ∧ t.pi.Nodup := by
  simp [PairTable.bijective]

/-- A bijective table of 32-bit masks has a span of at most 32: it hits every position below its span. -/
theorem span_le_of_bijective {t : PairTable} (hb : t.bijective = true) (h32 : ∀ p ∈ t.pi, p < 32) : t.span ≤ 32 := by
  by_contra hspan
  obtain ⟨k, _, hk⟩ := bijective_surj hb (not_le.1 hspan)
  exact absurd (h32 32 (List.mem_of_getElem? hk)) (by decide)

/-- When no non-zero entry follows a zero entry, the array is its leading non-zero entries and then zeros (R72). -/
theorem eq_maskPrefix_append_zeros {T : List Word} (h : maskIsPrefix T = true) :
    T = maskPrefix T ++ List.replicate (T.length - (maskPrefix T).length) 0#32 := by
  have hsplit : maskPrefix T ++ T.dropWhile (fun m => m != 0#32) = T := List.takeWhile_append_dropWhile
  have hdrop : T.drop (maskPrefix T).length = T.dropWhile (fun m => m != 0#32) :=
    (congrArg (List.drop _) hsplit).symm.trans List.drop_left
  have hzero : T.drop (maskPrefix T).length = List.replicate (T.length - (maskPrefix T).length) 0#32 :=
    List.eq_replicate_iff.2 ⟨List.length_drop, by simpa [maskIsPrefix] using h⟩
  rw [← hzero, hdrop, hsplit]

/-- Non-zero entries followed by zeros: the scan reads exactly the former. -/
theorem maskPrefix_append_zeros {ms : List Word} (h : ∀ m ∈ ms, m ≠ 0#32) (n : Nat) :
    maskPrefix (ms ++ List.replicate n 0#32) = ms := by
  rw [maskPrefix, List.takeWhile_append_of_pos (by simpa using h)]
  cases n <;> simp [List.replicate_succ]

/-- Single-bit entries are given back by the positions of their bits (R72). -/
theorem maskPrefix_eq_map_maskBits {T : List Word} (h : maskSingleBits T = true) :
    maskPrefix T = (maskBits T).map (BitVec.twoPow 32) ∧ ∀ p ∈ maskBits T, p < 32 := by
  simp only [maskSingleBits, List.all_eq_true, oneBit_iff] at h
  constructor
  · rw [maskBits, List.map_map]
    refine ((List.map_congr_left fun m hm => ?_).trans (List.map_id _)).symm
    obtain ⟨k, hk, rfl⟩ := h m hm
    exact congrArg _ (log2_twoPow hk)
  · simp only [maskBits, List.forall_mem_map]
    intro m hm
    obtain ⟨k, hk, rfl⟩ := h m hm
    rwa [log2_twoPow hk]

/-- What the converter accepts: `N` entries that R72 calls well formed, read as the positions of their set bits. -/
theorem fromMask_eq_ok_iff (N : Nat) (T : List Word) (t : PairTable) :
    fromMask N T = .ok t ↔ T.length = N ∧ maskWellFormed T = true ∧ { pi := maskBits T } = t := by
  unfold fromMask maskWellFormed maskBits
  split_ifs <;> simp_all

section
variable {t : PairTable} (hb : t.bijective = true) (hs : t.span ≤ 32)
include hb hs

theorem lt_32_of_mem {p : Nat} (hp : p ∈ t.pi) : p < 32 := (((bijective_iff t).1 hb).1 p hp).trans_le hs

/-- No entry below the span is zero. -/
theorem map_twoPow_ne_zero : ∀ m ∈ t.pi.map (BitVec.twoPow 32), m ≠ 0#32 :=
  List.forall_mem_map.2 fun _ hp => twoPow_ne_zero (lt_32_of_mem hb hs hp)

theorem maskPrefix_toMask (N : Nat) : maskPrefix (toMask t N) = t.pi.map (BitVec.twoPow 32) :=
  maskPrefix_append_zeros (map_twoPow_ne_zero hb hs) _

/-- Reading the set bits of the mask form gives the destinations back (R72). -/
theorem maskBits_toMask (N : Nat) : maskBits (toMask t N) = t.pi := by
  rw [maskBits, maskPrefix_toMask hb hs, List.map_map]
  exact (List.map_congr_left fun p hp => log2_twoPow (lt_32_of_mem hb hs hp)).trans t.pi.map_id

/-- The mask form of a bijective table meets each clause of R72. -/
theorem maskWellFormed_toMask (N : Nat) : maskWellFormed (toMask t N) = true := by
  obtain ⟨hlt, hnodup⟩ := (bijective_iff t).1 hb
  have h32 : ∀ p ∈ t.pi, p < 32 := fun p => lt_32_of_mem hb hs
  simp only [maskWellFormed, maskIsPrefix, maskSingleBits, maskNoCollision, maskInSpan, maskPrefix_toMask hb hs,
    Bool.and_eq_true, decide_eq_true_eq, List.all_eq_true, List.length_map, List.forall_mem_map]
  refine ⟨⟨⟨?isPrefix, ?singleBits⟩, ?noCollision⟩, ?inSpan⟩
  case isPrefix => simp [toMask]
  case singleBits => exact fun p hp => (oneBit_iff _).2 ⟨p, h32 p hp, rfl⟩
  case noCollision =>
    refine hnodup.map_on fun p hp q hq h => ?_
    rw [← log2_twoPow (h32 p hp), h, log2_twoPow (h32 q hq)]
  case inSpan =>
    intro p hp
    rw [toNat_twoPow_of_lt (h32 p hp)]
    exact Nat.pow_lt_pow_right (by decide) (hlt p hp)

end

/-- A well-formed array is the mask form of the table its set bits spell, and that table is bijective (R72). -/
theorem maskBits_of_wellFormed {T : List Word} (h : maskWellFormed T = true) :
    PairTable.bijective ⟨maskBits T⟩ = true ∧ (∀ p ∈ maskBits T, p < 32) ∧ toMask ⟨maskBits T⟩ T.length = T := by
  simp only [maskWellFormed, Bool.and_eq_true] at h
  obtain ⟨⟨⟨hzeros, hsingle⟩, hcollision⟩, hspan⟩ := h
  obtain ⟨hmap, h32⟩ := maskPrefix_eq_map_maskBits hsingle
  have hlen : (maskBits T).length = (maskPrefix T).length := List.length_map ..
  refine ⟨(bijective_iff _).2 ⟨fun p hp => ?_, ?_⟩, h32, ?_⟩
  · simp only [maskInSpan, List.all_eq_true, decide_eq_true_eq] at hspan
    have hlt := hspan (BitVec.twoPow 32 p) (hmap ▸ List.mem_map_of_mem hp)
    rw [toNat_twoPow_of_lt (h32 p hp), ← hlen] at hlt
    exact (Nat.pow_lt_pow_iff_right (by decide)).1 hlt
  · simp only [maskNoCollision, decide_eq_true_eq] at hcollision
    exact .of_map _ (hmap ▸ hcollision)
  · rw [toMask, ← hmap, PairTable.span, hlen]
    exact (eq_maskPrefix_append_zeros hzeros).symm

theorem length_toMask (t : PairTable) (N : Nat) : (toMask t N).length = max t.span N := by
  simp only [toMask, PairTable.span, List.length_append, List.length_map, List.length_replicate]
  omega

/-- What the converter accepts is exactly the mask form of the bijective tables that fit, each from its own table
(R71, R72). -/
theorem fromMask_eq_ok_iff_toMask (N : Nat) (T : List Word) (t : PairTable) :
    fromMask N T = .ok t ↔ t.bijective = true ∧ t.span ≤ 32 ∧ t.span ≤ N ∧ toMask t N = T := by
  rw [fromMask_eq_ok_iff]
  constructor
  · rintro ⟨rfl, hwf, rfl⟩
    obtain ⟨hb, h32, hT⟩ := maskBits_of_wellFormed hwf
    have hlen := congrArg List.length hT
    rw [length_toMask] at hlen
    exact ⟨hb, span_le_of_bijective hb h32, by omega, hT⟩
  · rintro ⟨hb, hs, hN, rfl⟩
    exact ⟨by rw [length_toMask, max_eq_right hN], maskWellFormed_toMask hb hs N, by rw [maskBits_toMask hb hs]⟩

/-- An entry of the mask form: the bit of a destination below the span, zero from there (R71). -/
theorem toMask_getElem? {t : PairTable} {N i : Nat} {m : Word} (h : (toMask t N)[i]? = some m) :
    (∃ p, t.pi[i]? = some p ∧ m = BitVec.twoPow 32 p) ∨ (t.span ≤ i ∧ m = 0#32) := by
  rcases lt_or_ge i t.span with hi | hi
  · rw [toMask, List.getElem?_append_left (by simpa [PairTable.span] using hi), List.getElem?_map,
      Option.map_eq_some_iff] at h
    obtain ⟨p, hp, rfl⟩ := h
    exact .inl ⟨p, hp, rfl⟩
  · rw [toMask, List.getElem?_append_right (by simpa [PairTable.span] using hi)] at h
    exact .inr ⟨hi, (List.mem_replicate.1 (List.mem_of_getElem? h)).2⟩

/-- Where a bit is set in the mask form, it is a destination (R71). -/
theorem toMask_getElem?_bit {t : PairTable} {N i a : Nat} {m : Word} (h : (toMask t N)[i]? = some m)
    (ha : m.getLsbD a = true) : t.pi[i]? = some a := by
  rcases toMask_getElem? h with ⟨p, hp, rfl⟩ | ⟨_, rfl⟩
  · rw [hp, eq_of_getLsbD_twoPow ha]
  · simp at ha

/-- The zero entries of the mask form are those from the span up (R71). -/
theorem toMask_entry_eq_zero_iff {t : PairTable} (hb : t.bijective = true) (hs : t.span ≤ 32) {N i : Nat} {m : Word}
    (h : (toMask t N)[i]? = some m) : m = 0#32 ↔ t.span ≤ i := by
  rcases toMask_getElem? h with ⟨p, hp, rfl⟩ | ⟨hi, rfl⟩
  · have hi : i < t.span := (List.getElem?_eq_some_iff.1 hp).1
    exact iff_of_false (twoPow_ne_zero (lt_32_of_mem hb hs (List.mem_of_getElem? hp))) (not_le.2 hi)
  · exact iff_of_true rfl hi

/-- The span of a table is the number of non-zero entries of its mask form (R72). -/
theorem length_filter_toMask {t : PairTable} (hb : t.bijective = true) (hs : t.span ≤ 32) (N : Nat) :
    ((toMask t N).filter fun m => m != 0#32).length = t.span := by
  have hne := map_twoPow_ne_zero hb hs
  rw [toMask, List.filter_append, List.filter_eq_self.2 (by simpa using hne)]
  simp [PairTable.span]

end Sys2Proof.Machine
end

/-! The statements about the encoding, settled: the mask form, then the command byte. -/
section
namespace Sys2Proof.Proofs
open Sys2Proof.Machine Sys2Proof.Claims

/-- Settles O5: both directions of what the converter accepts. -/
theorem maskFormRoundTrip : Obligations.MaskFormRoundTrip := by
  refine ⟨fun t N hb hs hN => (fromMask_eq_ok_iff_toMask N _ t).2 ⟨hb, hs, hN, rfl⟩, fun N T t h => ?_⟩
  obtain ⟨hb, _, _, hT⟩ := (fromMask_eq_ok_iff_toMask N T t).1 h
  exact ⟨hb, ((fromMask_eq_ok_iff N T t).1 h).1, hT⟩

/-- Settles O6: an accepted array is the mask form of a bijective table, and none of the four kinds is. -/
theorem illFormedArraysRefused : Obligations.IllFormedArraysRefused := by
  intro N T hbad
  cases hf : fromMask N T with
  | error e => exact ⟨e, rfl⟩
  | ok t =>
    exfalso
    obtain ⟨hb, hs, _, rfl⟩ := (fromMask_eq_ok_iff_toMask N T t).1 hf
    rcases hbad with ⟨m, hm, a, b, hab, ha, hbit⟩ | ⟨i, j, m, hij, hi, hj, hne⟩ |
      ⟨i, j, a, m, n, hij, hi, hj, ha, hbit⟩ | ⟨m, hm, a, ha, hle⟩
    · obtain ⟨i, hi⟩ := List.mem_iff_getElem?.1 hm
      have := (toMask_getElem?_bit hi ha).symm.trans (toMask_getElem?_bit hi hbit)
      exact hab (Option.some.inj this)
    · have hspan : t.span ≤ i := (toMask_entry_eq_zero_iff hb hs hi).1 rfl
      exact hne ((toMask_entry_eq_zero_iff hb hs hj).2 (hspan.trans hij.le))
    · exact hij (bijective_inj hb (toMask_getElem?_bit hi ha) (toMask_getElem?_bit hj hbit))
    · obtain ⟨i, hi⟩ := List.mem_iff_getElem?.1 hm
      rw [length_filter_toMask hb hs] at hle
      exact absurd (bijective_lt hb (toMask_getElem?_bit hi ha)) (not_lt.2 hle)

/-- Settles O1: each byte written out is a row of the opcode map. -/
theorem writtenBytesDecode : Obligations.WrittenBytesDecode :=
  ⟨decode_encode .pdata8D, decode_encode .pdata16S, decode_encode .paddr16D, decode_encode .paddr8S,
    decode_encode .detectD, decode_encode .detectS, decode_encode .xform16D, decode_encode .xform8S,
    decode_encode .runD, decode_encode .runS⟩

/-- Settles O2. -/
theorem decodeAndEncodeAgree : Obligations.DecodeAndEncodeAgree :=
  ⟨fun i _ => decode_encode i, fun _ _ => encode_of_decode⟩

/-- Settles O3: the errors by the fields of the byte, the count by the opcode map. -/
theorem reservedBytes : Obligations.ReservedBytes := by
  refine ⟨fun b => ?_, decodable_perm_opcodeMap.length_eq⟩
  rw [decode_error_iff, highBits_ne_zero_iff, byteFields_not_wellFormed_iff, or_assoc]

/-- Settles O40. -/
theorem reservedByteRaisesIllegalCommand : Obligations.ReservedByteRaisesIllegalCommand := by
  intro s e hm hd
  rw [step_of_engineMovesNext hm, engineMove_of_error hd, raiseFault_eq]
  rfl

end Sys2Proof.Proofs
end

/-! SUPPORT. The permutation of a table as one map of bit positions, its inverse, and the data permutation
(spec/30_encoding.md R70; spec/40_permute_data.md R101, R104, R105). -/
section
namespace Sys2Proof

/-- Where a table sends bit `k`: to `pi(k)` below the span, to its own place from there (R70). -/
def PairTable.dest (t : PairTable) (k : Nat) : Nat := t.pi[k]?.getD k

theorem PairTable.dest_of_entry {t : PairTable} {k p : Nat} (h : t.pi[k]? = some p) : t.dest k = p := by
  simp [PairTable.dest, h]

theorem PairTable.dest_of_ge {t : PairTable} {k : Nat} (h : t.span ≤ k) : t.dest k = k := by
  simp [PairTable.dest, List.getElem?_eq_none (show t.pi.length ≤ k from h)]

theorem PairTable.exists_entry {t : PairTable} {k : Nat} (h : k < t.span) : ∃ p, t.pi[k]? = some p :=
  ⟨_, List.getElem?_eq_getElem h⟩

end Sys2Proof

namespace Sys2Proof.Machine

section
variable {t : PairTable} (hb : t.bijective = true)
include hb

/-- The bits below the span move among themselves. -/
theorem dest_lt_span_iff (k : Nat) : t.dest k < t.span ↔ k < t.span := by
  rcases lt_or_ge k t.span with hk | hk
  · obtain ⟨p, hp⟩ := PairTable.exists_entry hk
    rw [PairTable.dest_of_entry hp]
    exact iff_of_true (bijective_lt hb hp) hk
  · rw [PairTable.dest_of_ge hk]

/-- No two bits of a bijective table share a destination. -/
theorem dest_injective : Function.Injective t.dest := by
  intro k l h
  have hside : k < t.span ↔ l < t.span := by rw [← dest_lt_span_iff hb k, h, dest_lt_span_iff hb l]
  rcases lt_or_ge k t.span with hk | hk
  · obtain ⟨p, hp⟩ := PairTable.exists_entry hk
    obtain ⟨q, hq⟩ := PairTable.exists_entry (hside.1 hk)
    rw [PairTable.dest_of_entry hp, PairTable.dest_of_entry hq] at h
    exact bijective_inj hb hp (h ▸ hq)
  · rwa [PairTable.dest_of_ge hk, PairTable.dest_of_ge (not_lt.1 (mt hside.2 (not_lt.2 hk)))] at h

variable {n : Nat} (hn : t.span ≤ n)
include hn

/-- The destinations of the `n` bits are the `n` positions in another order. -/
theorem map_dest_perm_range : ((List.range n).map t.dest).Perm (List.range n) := by
  have hsub : (List.range n).map t.dest ⊆ List.range n := by
    intro j hj
    obtain ⟨k, hk, rfl⟩ := List.mem_map.1 hj
    rw [List.mem_range] at hk ⊢
    have := dest_lt_span_iff hb k
    rcases lt_or_ge k t.span with hs | hs
    · omega
    · rwa [PairTable.dest_of_ge hs]
  exact ((List.nodup_range.map (dest_injective hb)).subperm hsub).perm_of_length_le (by simp)

/-- Output bit `dest(k)` is input bit `k` (R70). -/
theorem applyTable_getLsbD_dest (v : BitVec n) (k : Nat) : (applyTable t v).getLsbD (t.dest k) = v.getLsbD k := by
  rcases lt_or_ge k t.span with hk | hk
  · obtain ⟨p, hp⟩ := PairTable.exists_entry hk
    rw [PairTable.dest_of_entry hp, applyTable_dest hb hn v hp]
  · rw [PairTable.dest_of_ge hk, applyTable_high hb v hk]

/-- A table moves the set bits about and keeps their number (R105): count them at the destinations. -/
theorem applyTable_countP (v : BitVec n) :
    (List.range n).countP (fun k => (applyTable t v).getLsbD k) = (List.range n).countP (fun k => v.getLsbD k) := by
  rw [← (map_dest_perm_range hb hn).countP_eq, List.countP_map]
  exact congrArg (List.countP · _) (funext (applyTable_getLsbD_dest hb hn v))

/-- A value all of whose bits are equal stays (R105). -/
theorem applyTable_of_constant {v : BitVec n} {b : Bool} (hv : ∀ k < n, v.getLsbD k = b) : applyTable t v = v := by
  refine (applyTable_unique hb hn v v (fun k p hp => ?_) fun _ _ _ => rfl).symm
  have hk : k < t.span := (List.getElem?_eq_some_iff.1 hp).1
  rw [hv k (hk.trans_le hn), hv p ((bijective_lt hb hp).trans_le hn)]

/-- A table undone by another gives back what the other did (R34, R104, R115). -/
theorem applyTable_applyTable_of_undoneBy {u : PairTable} (hub : u.bijective = true) (hun : u.span ≤ n)
    (h : t.undoneBy u = true) (v : BitVec n) : applyTable t (applyTable u v) = v := by
  have hspan : t.span = u.span := by
    simp only [PairTable.undoneBy, Bool.and_eq_true, beq_iff_eq] at h
    exact h.1
  refine (applyTable_unique hb hn _ v (fun k p hp => ?_) fun k hk _ => ?_).symm
  · exact (applyTable_dest hub hun v (undoneBy_back h hp).1).symm
  · exact (applyTable_high hub v (hspan ▸ hk)).symm

end

section
variable (c : Config) (w : Width) (d : Dir)

/-- The data tables of a configuration are bijective and fit their width (R36). -/
theorem data_wf : (c.tab.data w d).bijective = true ∧ (c.tab.data w d).span ≤ w.bits := by
  obtain ⟨hs, hb, _⟩ := wf_key c.tabWf w d
  exact ⟨hb, hs⟩

/-- Permuting one way after the other gives the data word back (R104). -/
theorem permuteData_permuteData_inv (v : BitVec w.bits) :
    permuteData c.tab w d (permuteData c.tab w d.inv v) = v := by
  obtain ⟨hs, hb, _, _, hback, _⟩ := wf_key c.tabWf w d
  obtain ⟨hb', hs'⟩ := data_wf c w d.inv
  exact applyTable_applyTable_of_undoneBy hb hs hb' hs' hback v

theorem permuteData_inv_permuteData (v : BitVec w.bits) :
    permuteData c.tab w d.inv (permuteData c.tab w d v) = v := by
  cases d
  · exact permuteData_permuteData_inv c w .S v
  · exact permuteData_permuteData_inv c w .D v

/-- The data operand is the low `w` bits of `OPA` (R85, R100). -/
theorem dataOperand_getLsbD (s : State) {k : Nat} (hk : k < w.bits) :
    (dataOperand w s).getLsbD k = s.opa.getLsbD k := by
  simp [dataOperand, hk]

/-- A data word zero-extended to a register keeps its bits (R100). -/
theorem getLsbD_setWidth_data {w : Width} (v : BitVec w.bits) (k : Nat) :
    (v.setWidth 32).getLsbD k = v.getLsbD k := by
  rw [BitVec.getLsbD_setWidth, Bool.and_eq_right_iff_imp, decide_eq_true_eq]
  intro h
  have hk : k < w.bits := BitVec.lt_of_getLsbD h
  have hw : w.bits ≤ 32 := by cases w <;> decide
  exact hk.trans_le hw

end

end Sys2Proof.Machine
end

/-! SUPPORT. The closed form and the table-driven form, each against the moved bits of `apply` (spec/30_encoding.md R70,
R73, R74). -/
section
namespace Sys2Proof.Machine

/-- One pair moves its source bit: the bit of the destination when the source bit is set (R70). -/
theorem moveBits_cons {n : Nat} (v : BitVec n) (p : Nat) (ps : List Nat) (k : Nat) :
    moveBits v (p :: ps) k = (if v.getLsbD k then BitVec.twoPow n p else 0#n) ||| moveBits v ps (k + 1) := by
  rw [moveBits]
  cases v.getLsbD k
  · simp
  · have hone : BitVec.setWidth n 1#1 = 1#n := BitVec.eq_of_toNat_eq (by simp)
    simp [BitVec.twoPow_eq, hone]

/-- Shifting the bit of `k` by `p - k` makes it the bit of `p` (R74). -/
theorem shiftBy_twoPow {n k : Nat} (hk : k < n) (p : Nat) :
    shiftBy (BitVec.twoPow n k) ((p : Int) - k) = BitVec.twoPow n p := by
  rcases le_or_gt k p with h | h
  · rw [shiftBy, if_pos (by omega), BitVec.twoPow_eq, ← BitVec.shiftLeft_add, BitVec.twoPow_eq]
    congr 1
    omega
  · rw [shiftBy, if_neg (by omega)]
    apply BitVec.eq_of_getLsbD_eq
    intro j hj
    rw [BitVec.getLsbD_ushiftRight, BitVec.getLsbD_twoPow, BitVec.getLsbD_twoPow, Bool.eq_iff_iff]
    simp only [Bool.and_eq_true, decide_eq_true_eq]
    omega

theorem shiftBy_zero (n : Nat) (e : Int) : shiftBy (0#n) e = 0#n := by simp [shiftBy]

/-- The closed form moves each bit as `apply` does (R70, R74). -/
theorem closedBits_eq_moveBits {n : Nat} (v : BitVec n) (ps : List Nat) (k : Nat) (h : k + ps.length ≤ n) :
    closedBits v ps k = moveBits v ps k := by
  induction ps generalizing k with
  | nil => rfl
  | cons p ps ih =>
    rw [List.length_cons] at h
    rw [closedBits, moveBits_cons, ih (k + 1) (by omega), BitVec.and_twoPow]
    split
    · rw [shiftBy_twoPow (by omega)]
    · rw [shiftBy_zero]

/-- A mask cut or extended to the width of the input is still the bit of its destination (R73). -/
theorem setWidth_twoPow {p : Nat} (hp : p < 32) (n : Nat) :
    (BitVec.twoPow 32 p).setWidth n = BitVec.twoPow n p := by
  apply BitVec.eq_of_getLsbD_eq
  intro j hj
  rw [BitVec.getLsbD_setWidth, BitVec.getLsbD_twoPow, BitVec.getLsbD_twoPow, Bool.eq_iff_iff]
  simp only [Bool.and_eq_true, decide_eq_true_eq]
  omega

theorem scanMask_zeros {n : Nat} (v : BitVec n) (z k : Nat) (out pass : BitVec n) :
    scanMask v (List.replicate z 0#32) k out pass = (out, pass) := by
  cases z
  · rfl
  · simp [List.replicate_succ, scanMask]

/-- The scan over masks and then zeros collects the moved bits and shifts the pass mask once per entry (R73). -/
theorem scanMask_masks {n : Nat} (v : BitVec n) (z : Nat) (ps : List Nat) (h32 : ∀ p ∈ ps, p < 32) (k : Nat)
    (out pass : BitVec n) :
    scanMask v (ps.map (BitVec.twoPow 32) ++ List.replicate z 0#32) k out pass =
      (out ||| moveBits v ps k, pass <<< ps.length) := by
  induction ps generalizing k out pass with
  | nil => simp [scanMask_zeros, moveBits]
  | cons p ps ih =>
    have hp : p < 32 := h32 p List.mem_cons_self
    rw [List.map_cons, List.cons_append, scanMask, if_neg (twoPow_ne_zero hp), setWidth_twoPow hp,
      ih fun q hq => h32 q (List.mem_cons_of_mem p hq), moveBits_cons, ← BitVec.shiftLeft_add, List.length_cons,
      Nat.add_comm 1]
    split
    · rw [BitVec.or_assoc]
    · rw [BitVec.zero_or]

theorem tableDriven_eq_applyTable {t : PairTable} (hb : t.bijective = true) (hs : t.span ≤ 32) (N : Nat) {n : Nat}
    (v : BitVec n) : tableDriven (toMask t N) v = applyTable t v := by
  have hscan := scanMask_masks v (N - t.span) t.pi (fun _ => lt_32_of_mem hb hs) 0 0#n (BitVec.allOnes n)
  rw [tableDriven, toMask, hscan, BitVec.zero_or]
  rfl

theorem closedForm_eq_applyTable {t : PairTable} {n : Nat} (hn : t.span ≤ n) (v : BitVec n) :
    closedForm t v = applyTable t v := by
  rw [closedForm, applyTable, closedBits_eq_moveBits v t.pi 0 ((Nat.zero_add _).trans_le hn)]

end Sys2Proof.Machine
end

/-! The statements about the data permutation, settled. -/
section
namespace Sys2Proof.Proofs
open Sys2Proof.Machine Sys2Proof.Claims

/-- Settles O4: both forms collect the same moved bits as `apply`. -/
theorem engineFormsAgree : Obligations.EngineFormsAgree :=
  fun _ N _ v hb hn hs _ => ⟨tableDriven_eq_applyTable hb hs N v, closedForm_eq_applyTable hn v⟩

/-- Settles O7. -/
theorem dataInverseLaw : Obligations.DataInverseLaw :=
  fun c w v => ⟨permuteData_permuteData_inv c w .D v, permuteData_permuteData_inv c w .S v⟩

/-- Settles O9: the other direction is the inverse, and the bits only change places. -/
theorem dataPermutationIsBijective : Obligations.DataPermutationIsBijective := by
  intro c w d
  obtain ⟨hb, hs⟩ := data_wf c w d
  refine ⟨?bijective, applyTable_countP hb hs, ?zero, ?ones⟩
  case bijective =>
    exact Function.bijective_iff_has_inverse.2
      ⟨permuteData c.tab w d.inv, permuteData_inv_permuteData c w d, permuteData_permuteData_inv c w d⟩
  case zero => exact applyTable_of_constant hb hs (b := false) fun k _ => BitVec.getLsbD_zero
  case ones => exact applyTable_of_constant hb hs (b := true) fun k hk => by simp [hk]

/-- PDATA of each width and direction has its effect, bit by bit. -/
theorem pdataEffect_pdataOf (w : Width) (d : Dir) : pdataEffect (pdataOf w d) w d := by
  intro s
  obtain ⟨hb, hs⟩ := data_wf s.cfg w d
  refine ⟨(permuteData s.cfg.tab w d (dataOperand w s)).setWidth 32, exec_pdataOf w d s, fun k p hp => ?moved,
    fun k hk hkw => ?kept, fun k hk => ?above⟩ <;> rw [getLsbD_setWidth_data]
  case moved =>
    have hk : k < (s.cfg.tab.data w d).span := (List.getElem?_eq_some_iff.1 hp).1
    rw [permuteData, applyTable_dest hb hs _ hp, dataOperand_getLsbD w s (hk.trans_le hs)]
  case kept => rw [permuteData, applyTable_high hb _ hk, dataOperand_getLsbD w s hkw]
  case above => exact BitVec.getLsbD_of_ge _ _ hk

/-- Settles O15. -/
theorem pdataMovesEachBit : Obligations.PdataMovesEachBit :=
  ⟨pdataEffect_pdataOf .w8 .D, pdataEffect_pdataOf .w16 .D, pdataEffect_pdataOf .w8 .S, pdataEffect_pdataOf .w16 .S⟩

end Sys2Proof.Proofs
end

/-! SUPPORT. The bits a table leaves in place, and the address permutation of a configuration (spec/30_encoding.md R70;
spec/41_permute_address.md R111 to R118). -/
section
namespace Sys2Proof

/-- Every set bit of `m` stands at a position the table sends to itself (R70). -/
def PairTable.fixesBitsOf {n : Nat} (t : PairTable) (m : BitVec n) : Prop := ∀ k, m.getLsbD k = true → t.dest k = k

theorem PairTable.fixesBitsOf_of_span_le {n : Nat} {t : PairTable} {m : BitVec n}
    (h : ∀ k, m.getLsbD k = true → t.span ≤ k) : t.fixesBitsOf m :=
  fun k hk => PairTable.dest_of_ge (h k hk)

end Sys2Proof

namespace Sys2Proof.Machine

/-- Agreeing outside a mask, said with the masked bits all set. -/
theorem and_not_eq_and_not_iff {n : Nat} (a b m : BitVec n) : a &&& ~~~m = b &&& ~~~m ↔ a ||| m = b ||| m := by
  simp only [BitVec.eq_of_getLsbD_eq_iff, BitVec.getLsbD_and, BitVec.getLsbD_not, BitVec.getLsbD_or]
  refine forall₂_congr fun i hi => ?_
  cases m.getLsbD i <;> simp [hi]

section
variable {t : PairTable} (hb : t.bijective = true) {n : Nat} {m : BitVec n} (hm : t.fixesBitsOf m)
include hb hm

/-- A fixed bit is no other bit's destination, so a fixed mask is the same at a bit and at its destination. -/
theorem getLsbD_dest_of_fixesBitsOf (k : Nat) : m.getLsbD (t.dest k) = m.getLsbD k := by
  rw [Bool.eq_iff_iff]
  constructor
  · intro h
    rwa [dest_injective hb (hm _ h)] at h
  · intro h
    rwa [hm k h]

variable (hn : t.span ≤ n)
include hn

/-- The bits of a fixed mask are copied (R112, R113). -/
theorem applyTable_and_of_fixesBitsOf (v : BitVec n) : applyTable t v &&& m = v &&& m := by
  apply BitVec.eq_of_getLsbD_eq
  intro k _
  rw [BitVec.getLsbD_and, BitVec.getLsbD_and]
  cases hk : m.getLsbD k with
  | false => simp
  | true => rw [← applyTable_getLsbD_dest hb hn v k, hm k hk]

/-- Setting the bits of a fixed mask before or after the permutation is the same. -/
theorem applyTable_or_of_fixesBitsOf (v : BitVec n) : applyTable t (v ||| m) = applyTable t v ||| m := by
  refine (applyTable_unique hb hn _ _ (fun k p hp => ?_) fun k hk _ => ?_).symm
  · rw [BitVec.getLsbD_or, BitVec.getLsbD_or, applyTable_dest hb hn v hp, ← PairTable.dest_of_entry hp,
      getLsbD_dest_of_fixesBitsOf hb hm]
  · rw [BitVec.getLsbD_or, BitVec.getLsbD_or, applyTable_high hb v hk]

/-- Adding clear bits of a fixed mask before or after the permutation is the same (R117, R118). -/
theorem applyTable_add_of_fixesBitsOf {v : BitVec n} (hv : v &&& m = 0#n) :
    applyTable t (v + m) = applyTable t v + m := by
  have hv' : applyTable t v &&& m = 0#n := (applyTable_and_of_fixesBitsOf hb hm hn v).trans hv
  rw [BitVec.add_eq_or_of_and_eq_zero v m hv, BitVec.add_eq_or_of_and_eq_zero _ m hv',
    applyTable_or_of_fixesBitsOf hb hm hn]

/-- Outside a fixed mask the result depends only on the input outside that mask (R112, R113). -/
theorem applyTable_and_not_congr {a b : BitVec n} (h : a &&& ~~~m = b &&& ~~~m) :
    applyTable t a &&& ~~~m = applyTable t b &&& ~~~m := by
  rw [and_not_eq_and_not_iff] at h ⊢
  rw [← applyTable_or_of_fixesBitsOf hb hm hn, h, applyTable_or_of_fixesBitsOf hb hm hn]

/-- The table sends the positions outside a fixed mask to positions outside it (R113). -/
theorem getLsbD_not_entry {k p : Nat} (hp : t.pi[k]? = some p) : (~~~m).getLsbD p = (~~~m).getLsbD k := by
  have hk : k < t.span := (List.getElem?_eq_some_iff.1 hp).1
  have hkn : k < n := hk.trans_le hn
  have hpn : p < n := (bijective_lt hb hp).trans_le hn
  have hsame := getLsbD_dest_of_fixesBitsOf hb hm k
  rw [PairTable.dest_of_entry hp] at hsame
  rw [BitVec.getLsbD_not, BitVec.getLsbD_not, hsame, decide_eq_true hkn, decide_eq_true hpn]

end

/-- The width-8 address tables move bit 0 (R32, R36). -/
theorem wf_moves8 {t : TableSet} (h : t.wf = true) (d : Dir) : (t.addr .w8 d).pi[0]? ≠ some 0 := by
  simp only [TableSet.wf, Bool.and_eq_true] at h
  obtain ⟨⟨⟨hD, hS⟩, _⟩, _⟩ := h
  have key : t.wfKey .w8 d = true := by cases d <;> assumption
  simp only [TableSet.wfKey, Bool.and_eq_true, PairTable.fixes, Bool.not_eq_true', beq_eq_false_iff_ne] at key
  exact key.2

section
variable (c : Config) (w : Width) (d : Dir)

/-- The address tables of a configuration are bijective, with the span of their width, and fit an address (R32, R33,
R36). -/
theorem addr_wf : (c.tab.addr w d).bijective = true ∧ (c.tab.addr w d).span = addrSpan w ∧
    (c.tab.addr w d).span ≤ 32 := by
  obtain ⟨_, _, hspan, hb, _⟩ := wf_key c.tabWf w d
  refine ⟨hb, hspan, ?_⟩
  rw [hspan]
  cases w <;> decide

/-- Permuting one way after the other gives the address back (R115). -/
theorem permuteAddr_permuteAddr_inv (a : Word) : permuteAddr c.tab w d (permuteAddr c.tab w d.inv a) = a := by
  obtain ⟨hb, _, h32⟩ := addr_wf c w d
  obtain ⟨hb', _, h32'⟩ := addr_wf c w d.inv
  obtain ⟨_, _, _, _, _, hback⟩ := wf_key c.tabWf w d
  exact applyTable_applyTable_of_undoneBy hb h32 hb' h32' hback a

theorem permuteAddr_bijective : Function.Bijective (permuteAddr c.tab w d) :=
  ⟨fun _ _ => permuteAddr_inj c w d, fun a => ⟨_, permuteAddr_permuteAddr_inv c w d a⟩⟩

/-- An address keeps its block of `2^S` bytes (R118). -/
theorem permuteAddr_block (a : Word) :
    (permuteAddr c.tab w d a).toNat / 2 ^ addrSpan w = a.toNat / 2 ^ addrSpan w := by
  obtain ⟨hb, hspan, _⟩ := addr_wf c w d
  apply Nat.eq_of_testBit_eq
  intro j
  rw [Nat.testBit_div_two_pow, Nat.testBit_div_two_pow]
  exact applyTable_high hb a (hspan.trans_le (Nat.le_add_left ..))

/-- An address and its image lie in the same ranges of whole blocks (R116). -/
theorem permuteAddr_lt_blocks_iff (a : Word) (m : Nat) :
    (permuteAddr c.tab w d a).toNat < m * 2 ^ addrSpan w ↔ a.toNat < m * 2 ^ addrSpan w := by
  rw [← Nat.div_lt_iff_lt_mul (Nat.two_pow_pos _), ← Nat.div_lt_iff_lt_mul (Nat.two_pow_pos _), permuteAddr_block]

/-- The permutation acts inside the first block (R118). -/
theorem permutedPos_lt_block {r : Nat} (hr : r < 2 ^ addrSpan w) : permutedPos c.tab w d r < 2 ^ addrSpan w := by
  have h := permuteAddr_lt_blocks_iff c w d (BitVec.ofNat 32 r) 1
  rw [Nat.one_mul] at h
  exact h.2 ((Nat.mod_le ..).trans_lt hr)

/-- The first address of a block has no bit set below the span (R118). -/
theorem span_le_of_getLsbD_blockStart {S q k : Nat} (h : (BitVec.ofNat 32 (q * 2 ^ S)).getLsbD k = true) : S ≤ k := by
  simp only [BitVec.getLsbD_ofNat, Nat.testBit_mul_two_pow, Bool.and_eq_true, decide_eq_true_eq] at h
  exact h.2.1

/-- A position inside a block and the start of a block share no bit (R118). -/
theorem ofNat_and_blockStart {S r : Nat} (hr : r < 2 ^ S) (q : Nat) :
    BitVec.ofNat 32 r &&& BitVec.ofNat 32 (q * 2 ^ S) = 0#32 := by
  apply BitVec.eq_of_getLsbD_eq
  intro k _
  rw [BitVec.getLsbD_and, BitVec.getLsbD_zero, Bool.and_eq_false_iff]
  rcases lt_or_ge k S with hk | hk
  · exact .inr (Bool.eq_false_iff.2 fun h => absurd (span_le_of_getLsbD_blockStart h) (not_le.2 hk))
  · refine .inl ?_
    rw [BitVec.getLsbD_ofNat, Nat.testBit_lt_two_pow (hr.trans_le (Nat.pow_le_pow_right two_pos hk)), Bool.and_false]

/-- The permuted address of a position inside a block is the block's start and the permuted position (R118). -/
theorem permuteAddr_add_blockStart {r : Nat} (hr : r < 2 ^ addrSpan w) (q : Nat) :
    permuteAddr c.tab w d (BitVec.ofNat 32 r + BitVec.ofNat 32 (q * 2 ^ addrSpan w)) =
      permuteAddr c.tab w d (BitVec.ofNat 32 r) + BitVec.ofNat 32 (q * 2 ^ addrSpan w) := by
  obtain ⟨hb, hspan, h32⟩ := addr_wf c w d
  have hfix : (c.tab.addr w d).fixesBitsOf (BitVec.ofNat 32 (q * 2 ^ addrSpan w)) :=
    PairTable.fixesBitsOf_of_span_le fun k hk => hspan.trans_le (span_le_of_getLsbD_blockStart hk)
  exact applyTable_add_of_fixesBitsOf hb hfix h32 (ofNat_and_blockStart hr q)

/-- A block that begins inside the address range ends inside it (R118). -/
theorem block_end_le {q r : Nat} (h : q * 2 ^ addrSpan w + r < 2 ^ 32) :
    q * 2 ^ addrSpan w + 2 ^ addrSpan w ≤ 2 ^ 32 := by
  cases w <;> simp only [addrSpan] at * <;> omega

/-- Bits 31 to 19 stay at width 8 (R112). -/
theorem addr8_fixesBitsOf : (c.tab.addr .w8 d).fixesBitsOf 0xFFF80000#32 := by
  obtain ⟨_, hspan, _⟩ := addr_wf c .w8 d
  have hbits : 0xFFF80000#32 = high 19 32 := by decide
  refine PairTable.fixesBitsOf_of_span_le fun k hk => ?_
  rw [hbits, high_getLsbD, Bool.and_eq_true, decide_eq_true_eq, decide_eq_true_eq] at hk
  exact hspan.trans_le hk.2

/-- The bits of 0xFFFC400D stay at width 16: those from the span up, and the fixed points of R33 (R113). -/
theorem addr16_fixesBitsOf : (c.tab.addr .w16 d).fixesBitsOf 0xFFFC400D#32 := by
  obtain ⟨_, hspan, _⟩ := addr_wf c .w16 d
  obtain ⟨h0, h2, h3, h14⟩ := wf_fixes16 c.tabWf d
  have hbits : ∀ k < 18, (0xFFFC400D#32).getLsbD k = true → k = 0 ∨ k = 2 ∨ k = 3 ∨ k = 14 := by decide
  intro k hk
  rcases lt_or_ge k 18 with hlt | hge
  · rcases hbits k hlt hk with rfl | rfl | rfl | rfl
    · exact PairTable.dest_of_entry h0
    · exact PairTable.dest_of_entry h2
    · exact PairTable.dest_of_entry h3
    · exact PairTable.dest_of_entry h14
  · exact PairTable.dest_of_ge (hspan.trans_le hge)

/-- Bit 0 stays at width 16, as a mask (R113, R117). -/
theorem addr16_fixesBitsOf_one : (c.tab.addr .w16 d).fixesBitsOf 1#32 := by
  intro k hk
  obtain rfl : k = 0 := by simpa using hk
  exact PairTable.dest_of_entry (wf_fixes16 c.tabWf d).1

/-- At width 8 bit 0 of an address does not stay at bit 0 (R112, R117). -/
theorem permuteAddr8_one_bit0 : (permuteAddr c.tab .w8 d 1#32).getLsbD 0 = false := by
  obtain ⟨hb, hspan, h32⟩ := addr_wf c .w8 d
  obtain ⟨k, _, hk⟩ := bijective_surj hb (p := 0) (by rw [hspan]; decide)
  have hk0 : k ≠ 0 := by
    rintro rfl
    exact wf_moves8 c.tabWf d hk
  rw [permuteAddr, applyTable_dest hb h32 _ hk]
  simpa using hk0

/-- An address is even exactly when its bit 0 is clear. -/
theorem even_iff_getLsbD_zero (a : Word) : a.toNat % 2 = 0 ↔ a.getLsbD 0 = false := by
  simp [BitVec.getLsbD, Nat.testBit_zero]

/-- At width 16 the odd address of a word follows its even one (R117). -/
theorem permuteAddr16_add_one {a : Word} (h : a.toNat % 2 = 0) :
    permuteAddr c.tab .w16 d (a + 1#32) = permuteAddr c.tab .w16 d a + 1#32 := by
  obtain ⟨hb, _, h32⟩ := addr_wf c .w16 d
  have hclear : a &&& 1#32 = 0#32 := by
    rw [BitVec.and_one_eq_setWidth_ofBool_getLsbD, (even_iff_getLsbD_zero a).1 h]
    rfl
  exact applyTable_add_of_fixesBitsOf hb (addr16_fixesBitsOf_one c d) h32 hclear

end

end Sys2Proof.Machine
end

/-! The statements about the address permutation, settled. -/
section
namespace Sys2Proof.Proofs
open Sys2Proof.Machine Sys2Proof.Claims

/-- Settles O8. -/
theorem addressInverseLaw : Obligations.AddressInverseLaw :=
  fun c w a => ⟨permuteAddr_permuteAddr_inv c w .D a, permuteAddr_permuteAddr_inv c w .S a⟩

/-- Settles O10: the bits from 19 up are a fixed mask, and a bijective table hits every position below its span. -/
theorem addressWidth8 : Obligations.AddressWidth8 := by
  intro c d
  obtain ⟨hb, hspan, h32⟩ := addr_wf c .w8 d
  have hfix := addr8_fixesBitsOf c d
  have hlow : 0x0007FFFF#32 = ~~~0xFFF80000#32 := by decide
  refine ⟨applyTable_and_of_fixesBitsOf hb hfix h32, fun k hk => ?into, fun p hp => ?onto, fun a b h => ?lowBits,
    permuteAddr8_one_bit0 c d⟩
  case into =>
    obtain ⟨p, hp⟩ := PairTable.exists_entry (hk.trans_eq hspan.symm)
    exact ⟨p, (bijective_lt hb hp).trans_eq hspan, hp, fun a => applyTable_dest hb h32 a hp⟩
  case onto =>
    obtain ⟨k, hk, hkp⟩ := bijective_surj hb (hp.trans_eq hspan.symm)
    exact ⟨k, hk.trans_eq hspan, hkp⟩
  case lowBits =>
    rw [hlow] at h ⊢
    exact applyTable_and_not_congr hb hfix h32 h

/-- Settles O11: 0xFFFC400D is a fixed mask, and the table permutes the positions outside it. -/
theorem addressWidth16 : Obligations.AddressWidth16 := by
  intro c d
  obtain ⟨hb, hspan, h32⟩ := addr_wf c .w16 d
  have hfix := addr16_fixesBitsOf c d
  have hmoved : 0x0003BFF2#32 = ~~~0xFFFC400D#32 := by decide
  have hbelow : ∀ k, (0x0003BFF2#32).getLsbD k = true → k < (c.tab.addr .w16 d).span := by
    intro k hk
    have hall : ∀ k < 32, (0x0003BFF2#32).getLsbD k = true → k < 18 := by decide
    exact (hall k (BitVec.lt_of_getLsbD hk) hk).trans_eq hspan.symm
  have hentry : ∀ {k p}, (c.tab.addr .w16 d).pi[k]? = some p →
      (0x0003BFF2#32).getLsbD p = (0x0003BFF2#32).getLsbD k := by
    rw [hmoved]
    exact getLsbD_not_entry hb hfix h32
  refine ⟨applyTable_and_of_fixesBitsOf hb hfix h32, fun k hk => ?into, fun p hp => ?onto, fun a b h => ?movedBits⟩
  case into =>
    obtain ⟨p, hp⟩ := PairTable.exists_entry (hbelow k hk)
    exact ⟨p, (hentry hp).trans hk, hp, fun a => applyTable_dest hb h32 a hp⟩
  case onto =>
    obtain ⟨k, _, hkp⟩ := bijective_surj hb (hbelow p hp)
    exact ⟨k, (hentry hkp).symm.trans hp, hkp⟩
  case movedBits =>
    rw [hmoved] at h ⊢
    exact applyTable_and_not_congr hb hfix h32 h

/-- Settles O12: bit 0 is a fixed mask of the width-16 tables. -/
theorem addressWidth16KeepsAlignment : Obligations.AddressWidth16KeepsAlignment := by
  intro c d a
  have hbit := permuteAddr16_bit0 c d a
  refine ⟨hbit, ?_, permuteAddr16_add_one c d, permuteAddr8_one_bit0 c d⟩
  rw [even_iff_getLsbD_zero, even_iff_getLsbD_zero, hbit]

/-- Settles O13: the start of a block is a fixed mask, and the sum stays inside the block. -/
theorem addressBlockStructure : Obligations.AddressBlockStructure := by
  intro c w d q r hr h32
  have hlt := permutedPos_lt_block c w d hr
  have hend := block_end_le w h32
  have hstart : (BitVec.ofNat 32 (q * 2 ^ addrSpan w)).toNat = q * 2 ^ addrSpan w := toNat_ofNat_lt (by omega)
  have hsum : permutedPos c.tab w d r + (BitVec.ofNat 32 (q * 2 ^ addrSpan w)).toNat < 2 ^ 32 := by omega
  refine ⟨?_, hlt⟩
  rw [permutedPos, Nat.add_comm, BitVec.ofNat_add, permuteAddr_add_blockStart c w d hr,
    BitVec.toNat_add_of_lt hsum, hstart, Nat.add_comm]

/-- Settles O14: the other direction is the inverse, and no address leaves its block. -/
theorem addressBijection : Obligations.AddressBijection := by
  intro c w d
  refine ⟨permuteAddr_bijective c w d, fun m _ _ => ⟨fun a => (permuteAddr_lt_blocks_iff c w d a m).2, ?_⟩⟩
  intro b hlt
  obtain ⟨a, rfl⟩ := (permuteAddr_bijective c w d).2 b
  exact ⟨a, (permuteAddr_lt_blocks_iff c w d a m).1 hlt, rfl⟩

/-- PADDR of each width and direction has its effect, bit by bit. -/
theorem paddrEffect_paddrOf (w : Width) (d : Dir) : paddrEffect (paddrOf w d) w d := by
  intro s
  obtain ⟨hb, _, h32⟩ := addr_wf s.cfg w d
  exact ⟨permuteAddr s.cfg.tab w d s.opa, exec_paddrOf w d s, fun _ _ => applyTable_dest hb h32 s.opa,
    fun _ => applyTable_high hb s.opa⟩

/-- Settles O16. -/
theorem paddrMovesEachBit : Obligations.PaddrMovesEachBit :=
  ⟨paddrEffect_paddrOf .w8 .D, paddrEffect_paddrOf .w16 .D, paddrEffect_paddrOf .w8 .S, paddrEffect_paddrOf .w16 .S⟩

end Sys2Proof.Proofs
end

/-! SUPPORT. Closed lengths: the permutation of the visited positions among themselves (spec/43_rom_transform.md R152),
and the buffer a completed transform leaves, unit by unit and byte by byte (R150, R157, R159). -/
section
namespace Sys2Proof.Machine
open Sys2Proof.Claims

/-- Permuting a position one way after the other gives it back (R115). -/
theorem permutedPos_inv_permutedPos (c : Config) (w : Width) (d : Dir) {n : Nat} (hn : n < 2 ^ 32) :
    permutedPos c.tab w d.inv (permutedPos c.tab w d n) = n := by
  have hback : permuteAddr c.tab w d.inv (permuteAddr c.tab w d (BitVec.ofNat 32 n)) = BitVec.ofNat 32 n := by
    cases d
    · exact permuteAddr_permuteAddr_inv c w .S _
    · exact permuteAddr_permuteAddr_inv c w .D _
  rw [permutedPos, permutedPos, BitVec.ofNat_toNat, BitVec.setWidth_eq, hback, toNat_ofNat_lt hn]

/-- The positions the loop visits for length `L`, as a finite set (R152). -/
def visitedPositions (w : Width) (L : Nat) : Finset Nat := (Finset.range L).filter fun n => n % w.bytes = 0

theorem mem_visitedPositions {w : Width} {L n : Nat} : n ∈ visitedPositions w L ↔ visited w L n := by
  simp [visitedPositions]

section
variable {c : Config} {w : Width} {d : Dir} {L : Nat} (hL : L ≤ 2 ^ 32) (hc : closedLength c.tab w d L)
include hL hc

/-- On a closed length a visited position is permuted to a visited position (R152, R117). -/
theorem visited_permutedPos {n : Nat} (hn : visited w L n) : visited w L (permutedPos c.tab w d n) :=
  ⟨hc.2 n hn.1 hn.2, permutedPos_aligned c w d (hn.1.trans_le hL) hn.2⟩

/-- On a closed length the permutation is onto the visited positions: it is injective and they are finitely many
(R152). -/
theorem exists_visited_permutedPos_eq {j : Nat} (hj : visited w L j) :
    ∃ n, visited w L n ∧ permutedPos c.tab w d n = j := by
  have hinto : Set.MapsTo (permutedPos c.tab w d) (visitedPositions w L) (visitedPositions w L) := fun n hn =>
    mem_visitedPositions.2 (visited_permutedPos hL hc (mem_visitedPositions.1 hn))
  have hinj : Set.InjOn (permutedPos c.tab w d) (visitedPositions w L) := fun m hm n hn =>
    permutedPos_inj c w d ((mem_visitedPositions.1 hm).1.trans_le hL) ((mem_visitedPositions.1 hn).1.trans_le hL)
  obtain ⟨n, hn, he⟩ := Finset.surjOn_of_injOn_of_card_le _ hinto hinj le_rfl (mem_visitedPositions.2 hj)
  exact ⟨n, mem_visitedPositions.1 hn, he⟩

/-- A length closed in one direction is closed in the other (R152). -/
theorem closedLength_inv : closedLength c.tab w d.inv L := by
  refine ⟨hc.1, fun j hlt ha => ?_⟩
  obtain ⟨n, hn, rfl⟩ := exists_visited_permutedPos_eq hL hc ⟨hlt, ha⟩
  rw [permutedPos_inv_permutedPos c w d (hn.1.trans_le hL)]
  exact hn.1

end

/-- A byte below a whole number of units lies in the unit of a visited position (R53). -/
theorem visited_unitStart {w : Width} {L a : Nat} (ha : a < L) : visited w L (a - a % w.bytes) :=
  ⟨(Nat.sub_le ..).trans_lt ha, Nat.mod_eq_zero_of_dvd (Nat.dvd_sub_mod a)⟩

/-- A byte read through the unit it lies in (R53). -/
theorem memRead_of_readUnit {o : WordOrder} {m : Memory} {a : Nat} {w : Width} {v : BitVec w.bits}
    (h : readUnit o m (a - a % w.bytes) w = .ok v) : memRead m a = some (unitByte o w v (a % w.bytes)) := by
  have hpos : 0 < w.bytes := by cases w <;> decide
  have hbyte := (readUnit_ok_iff ..).1 h (a % w.bytes) (Nat.mod_lt a hpos)
  rwa [Nat.sub_add_cancel (Nat.mod_le ..)] at hbyte

/-- On a loaded input of a whole number of units every visited unit is readable (R195). -/
theorem exists_readUnit_of_loaded {s : State} {w : Width} (hl : inputLoaded s) (hL : s.len.toNat % w.bytes = 0) {n : Nat}
    (hn : visited w s.len.toNat n) : ∃ v, readUnit s.cfg.wordOrder s.ib n w = .ok v := by
  refine readUnit_of_isSome fun j hj => hl _ ?_
  obtain ⟨hlt, ha⟩ := hn
  cases w <;> simp only [Width.bytes] at * <;> omega

section
variable {w : Width} {d : Dir} {s : State}

/-- A completed loop over the whole length shows the length closed (R152, R154). -/
theorem LoopWrote.closedLength {ob ob' : Memory} (hev : s.len.toNat % w.bytes = 0)
    (hw : LoopWrote s.cfg w d s.len s.ib 0 (iterations w s.len) ob ob') :
    closedLength s.cfg.tab w d s.len.toNat := by
  have hit := iterations_mul w s.len hev
  exact ⟨hev, fun n hn ha => hw.bounded n (Nat.zero_le _) (by omega) ha⟩

/-- A completed loop over the whole length leaves the transformed input (R157). -/
theorem LoopWrote.transformed {ob' : Memory} (hev : s.len.toNat % w.bytes = 0)
    (hw : LoopWrote s.cfg w d s.len s.ib 0 (iterations w s.len) s.ob ob') : transformed s w d ob' := by
  have hit := iterations_mul w s.len hev
  have hL : s.len.toNat ≤ 2 ^ 32 := s.len.isLt.le
  have hunits : ∀ n, visited w s.len.toNat n → ∃ v, readUnit s.cfg.wordOrder s.ib n w = .ok v ∧
      readUnit s.cfg.wordOrder ob' (permutedPos s.cfg.tab w d n) w = .ok (permuteData s.cfg.tab w d v) := by
    rintro n ⟨hn, ha⟩
    obtain ⟨v, hv⟩ := hw.readable n (Nat.zero_le _) (by omega) ha
    exact ⟨v, hv, hw.placed n (Nat.zero_le _) (by omega) ha v hv⟩
  refine ⟨hunits, fun a ha => ?_, fun a ha => hw.memRead_of_ge hev (by omega) ha⟩
  obtain ⟨n, hn, he⟩ := exists_visited_permutedPos_eq hL (hw.closedLength hev) (visited_unitStart ha)
  obtain ⟨v, _, hv⟩ := hunits n hn
  rw [memRead_of_readUnit (he ▸ hv), Option.isSome_some]

/-- On a loaded input of a closed length the transform completes and leaves the transformed input (R150, R152). -/
theorem xformBody_of_closed (hl : inputLoaded s) (hc : closedLength s.cfg.tab w d s.len.toNat) :
    ∃ ob', xformBody w d s = .next (complete { s with pos := s.len, ob := ob' }) ∧ transformed s w d ob' := by
  rcases xformBody_cases w d s with ⟨hodd, _⟩ | ⟨hev, ⟨ob', he, hw⟩ | ⟨m, hm, hle, _⟩ | ⟨m, e, hm, hr, _⟩⟩
  · exact absurd hc.1 hodd
  · exact ⟨ob', he, hw.transformed hev⟩
  · exact absurd (hc.2 m hm.1 hm.2) (not_lt.2 hle)
  · obtain ⟨v, hv⟩ := exists_readUnit_of_loaded hl hev hm
    rw [hv] at hr
    cases hr

/-- A transform that ends in DONE had a closed length and leaves the transformed input (R154, R157). -/
theorem xformBody_done {t : State} (h : xformBody w d s = .next t) (hdone : t.engine = .done) :
    closedLength s.cfg.tab w d s.len.toNat ∧ transformed s w d t.ob := by
  rcases xformBody_next h with ⟨_, rfl⟩ | ⟨hev, ob', rfl, hw⟩ | ⟨_, _, _, _, rfl⟩
  · simp at hdone
  · exact ⟨hw.closedLength hev, hw.transformed hev⟩
  · simp at hdone

/-- The gather form of a transformed buffer: each unit comes from the position permuted the other way (R157). -/
theorem transformed_gather {ob : Memory} (hc : closedLength s.cfg.tab w d s.len.toNat) (h : transformed s w d ob) {j : Nat}
    (hj : visited w s.len.toNat j) : ∃ v,
      readUnit s.cfg.wordOrder s.ib (permutedPos s.cfg.tab w d.inv j) w = .ok v ∧
      readUnit s.cfg.wordOrder ob j w = .ok (permuteData s.cfg.tab w d v) := by
  have hL : s.len.toNat ≤ 2 ^ 32 := s.len.isLt.le
  obtain ⟨n, hn, rfl⟩ := exists_visited_permutedPos_eq hL hc hj
  rw [permutedPos_inv_permutedPos s.cfg w d (hn.1.trans_le hL)]
  exact h.1 n hn

end

/-- `s` holds as input what the transform of the input of `p` leaves, the length and the configuration kept: the host's
copy of `OB` to `IB` (R159). -/
structure HoldsTransformOf (w : Width) (d : Dir) (p s : State) : Prop where
  closed : closedLength p.cfg.tab w d p.len.toNat
  image : transformed p w d s.ib
  len : s.len = p.len
  cfg : s.cfg = p.cfg

/-- The output of an XFORM that completed (R159). -/
theorem HoldsTransformOf.of_xform {w : Width} {d : Dir} {p s : State} (h : holdsOutputOf (xformOf w d) p s) :
    HoldsTransformOf w d p s := by
  obtain ⟨t, ht, hdone, hib, hlen, hcfg⟩ := h
  rw [completesAs, exec_xformOf] at ht
  rcases xform_cases w d p with ⟨_, he⟩ | ⟨_, he⟩
  · rw [he] at ht
    cases ht
  · obtain ⟨hc, himage⟩ := xformBody_done (he ▸ ht) hdone
    exact ⟨hc, hib ▸ himage, hlen, hcfg⟩

namespace HoldsTransformOf
variable {w : Width} {d : Dir} {p s : State} (h : HoldsTransformOf w d p s)
include h

/-- The transformed input is loaded (R157). -/
theorem loaded : inputLoaded s := by
  rw [inputLoaded, h.len]
  exact h.image.2.1

/-- Its length is closed for the way back (R152). -/
theorem closed_back : closedLength s.cfg.tab w d.inv s.len.toNat := by
  rw [h.len, h.cfg]
  exact closedLength_inv p.len.isLt.le h.closed

/-- The round trip: transforming it the other way gives every byte of the first input back (R159). -/
theorem roundTrip {ob : Memory} (hob : transformed s w d.inv ob) :
    ∀ a < p.len.toNat, memRead ob a = memRead p.ib a := by
  intro a ha
  have hL : p.len.toNat ≤ 2 ^ 32 := p.len.isLt.le
  have hn := visited_unitStart (w := w) ha
  obtain ⟨v, hv, hmid⟩ := h.image.1 _ hn
  have hunits := hob.1
  rw [h.len, h.cfg] at hunits
  obtain ⟨u, hu, hback⟩ := hunits _ (visited_permutedPos hL h.closed hn)
  rw [permutedPos_inv_permutedPos p.cfg w d (hn.1.trans_le hL)] at hback
  obtain rfl : permuteData p.cfg.tab w d v = u := Except.ok.inj (hmid.symm.trans hu)
  rw [permuteData_inv_permuteData] at hback
  rw [memRead_of_readUnit hback, memRead_of_readUnit hv]

end HoldsTransformOf

end Sys2Proof.Machine
end

/-! SUPPORT. The detector's view in direction D beside the transform, and the first trial that matches
(spec/42_format_detect.md R131 to R137). -/
section
namespace Sys2Proof.Machine
open Sys2Proof.Claims

/-- The even address of the word an offset lies in, as the mask of R131 makes it. -/
theorem ofNat_and_even (j : Nat) : BitVec.ofNat 32 j &&& 0xFFFFFFFE#32 = BitVec.ofNat 32 (j - j % 2) := by
  have hmask : 0xFFFFFFFE#32 = ~~~1#32 := by decide
  have heven : j - j % 2 = 2 * (j / 2) := by omega
  apply BitVec.eq_of_getLsbD_eq
  intro i hi
  simp only [hmask, heven, BitVec.getLsbD_and, BitVec.getLsbD_not, BitVec.getLsbD_ofNat]
  cases i with
  | zero => simp
  | succ i => simp [hi, Nat.testBit_succ]

/-- A view byte of direction D is the byte at that offset of the permuted unit, gathered from the position permuted the
other way (R131). -/
theorem viewByte_D_of_readUnit {c : Config} {len : Word} {ib : Memory} {w : Width} {j : Nat} {v : BitVec w.bits}
    (hj : j < len.toNat) (hend : permutedPos c.tab w .S (j - j % w.bytes) + w.bytes ≤ len.toNat)
    (hv : readUnit c.wordOrder ib (permutedPos c.tab w .S (j - j % w.bytes)) w = .ok v) :
    viewByte c len ib .D w j = .present (unitByte c.wordOrder w (permuteData c.tab w .D v) (j % w.bytes)) := by
  cases w with
  | w8 =>
    simp only [Width.bytes, Nat.mod_one, Nat.sub_zero] at hend hv ⊢
    have hb := (readUnit_ok_iff ..).1 hv 0 (by decide)
    simp only [Nat.add_zero, unitByte] at hb
    simp [viewByte, hj, show permutedPos c.tab .w8 .S j < len.toNat by omega, hb, unitByte]
  | w16 =>
    simp only [Width.bytes] at hend hv ⊢
    rw [permutedPos, ← ofNat_and_even] at hend hv
    simp [viewByte, hj, show _ + 1 < len.toNat from hend, hv, unitByte]

/-- On a closed length the view of direction D is the descrambled buffer, byte for byte (R131). -/
theorem viewByte_D_of_transformed {s : State} {w : Width} {ob : Memory} (hc : closedLength s.cfg.tab w .D s.len.toNat)
    (h : transformed s w .D ob) {j : Nat} (hj : j < s.len.toNat) :
    ∃ b, memRead ob j = some b ∧ viewByte s.cfg s.len s.ib .D w j = .present b := by
  have hL : s.len.toNat ≤ 2 ^ 32 := s.len.isLt.le
  have hstart := visited_unitStart (w := w) hj
  obtain ⟨hlt, ha⟩ := visited_permutedPos hL (closedLength_inv hL hc) hstart
  obtain ⟨v, hv, hout⟩ := transformed_gather hc h hstart
  refine ⟨_, memRead_of_readUnit hout, viewByte_D_of_readUnit hj ?_ hv⟩
  obtain ⟨hev, _⟩ := hc
  simp only [Dir.inv] at hlt ha
  cases w <;> simp only [Width.bytes] at * <;> omega

/-- What the detector sees of a scrambled image in direction D at the width it was scrambled at is what it sees of the
image itself in direction S (R131, R136). -/
theorem HoldsTransformOf.viewByte_eq {w : Width} {p s : State} (h : HoldsTransformOf w .S p s) (j : Nat) :
    viewByte s.cfg s.len s.ib .D w j = viewByte p.cfg p.len p.ib .S w j := by
  rcases lt_or_ge j p.len.toNat with hj | hj
  · obtain ⟨ob, _, hob⟩ := xformBody_of_closed h.loaded h.closed_back
    obtain ⟨b, hb, hview⟩ := viewByte_D_of_transformed h.closed_back hob (h.len ▸ hj)
    rw [h.roundTrip hob j hj] at hb
    rw [hview, (viewByte_S ..).2 ⟨hj, hb⟩]
  · rw [viewByte_absent _ _ _ _ _ _ hj, viewByte_absent _ _ _ _ _ _ (h.len ▸ hj)]

section
variable {s : State} {d : Dir}

/-- A view shows one sequence of bytes of each length at an offset (R132). -/
theorem viewShows_unique {w : Width} {off : Nat} {xs ys : List Byte} (hx : viewShows s d w off xs)
    (hy : viewShows s d w off ys) (hlen : xs.length = ys.length) : xs = ys :=
  List.ext_getElem hlen fun k hk hk' => ViewByte.present.inj ((hx k hk).symm.trans (hy k hk'))

/-- No view shows a byte at or above `LEN` (R137). -/
theorem not_viewShows_of_len_le {w : Width} {off : Nat} {bytes : List Byte} (hb : 0 < bytes.length)
    (hlen : s.len.toNat ≤ off) : ¬ viewShows s d w off bytes := by
  intro h
  have hview := h 0 hb
  rw [Nat.add_zero, viewByte_absent _ _ _ _ _ _ hlen] at hview
  cases hview

/-- In direction S the view shows the bytes of the image, where they lie below `LEN` (R131). -/
theorem viewShows_S_iff {w : Width} {off : Nat} {bytes : List Byte} (hlen : off + bytes.length ≤ s.len.toNat) :
    viewShows s .S w off bytes ↔ imageHas s off bytes := by
  refine forall₂_congr fun k hk => ?_
  rw [viewByte_S]
  exact and_iff_right (by omega)

/-- In direction S the view is the same at both widths (R131). -/
theorem viewShows_S_width (w w' : Width) {off : Nat} {bytes : List Byte} :
    viewShows s .S w off bytes ↔ viewShows s .S w' off bytes := by
  simp only [viewShows, viewByte_S]

section
variable (hlen : 15 ≤ s.len.toNat)
include hlen

/-- The named bytes of an SR-JV80 image are what direction S looks for (R136). -/
theorem showsSrjv80_S_iff : showsSrjv80 s .S ↔ imageHas s 0 sigRoland ∧ imageHas s 0xC tagSrjv80 :=
  and_congr (viewShows_S_iff ((by decide : 0 + sigRoland.length ≤ 15).trans hlen))
    (viewShows_S_iff ((by decide : 0xC + tagSrjv80.length ≤ 15).trans hlen))

/-- The named bytes of a JP-800 image are what direction S looks for (R136). -/
theorem showsJp800_S_iff : showsJp800 s .S ↔ imageHas s 0 sigJp800 :=
  viewShows_S_iff ((by decide : 0 + sigJp800.length ≤ 15).trans hlen)

/-- The named bytes of an SRX image are what direction S looks for (R136). -/
theorem showsSrx_S_iff : showsSrx s .S ↔ imageHas s 0 sigRoland ∧ imageHas s 0xC tagSrx :=
  and_congr (viewShows_S_iff ((by decide : 0 + sigRoland.length ≤ 15).trans hlen))
    (viewShows_S_iff ((by decide : 0xC + tagSrx.length ≤ 15).trans hlen))

end

end

/-- The trials made up to the one of type `rom` find that type first; for Unknown, none of them matches (R133). -/
def FirstMatch (s : State) (d : Dir) : RomType → Prop
  | .srjv80 => showsSrjv80 s d
  | .jp800 => ¬ showsSrjv80 s d ∧ showsJp800 s d
  | .srx => ¬ showsSrjv80 s d ∧ ¬ showsJp800 s d ∧ showsSrx s d
  | .unknown => ¬ showsSrjv80 s d ∧ ¬ showsJp800 s d ∧ ¬ showsSrx s d

/-- The width of the last trial that a detection of this type makes (R133, R135). -/
def lastTrial : RomType → Width
  | .jp800 | .srjv80 => .w8
  | .srx | .unknown => .w16

/-- What the detector answers when it finds this type (R133, R135). -/
def detectionOf (s : State) (d : Dir) (rom : RomType) : Detection :=
  { rom := rom, width := rom.width, header := header s.cfg s.len s.ib d (lastTrial rom) }

section
variable {s : State} {d : Dir}

/-- A JP-800 image is found first as such (R133). -/
theorem firstMatch_jp800 (h : showsJp800 s d) : FirstMatch s d .jp800 :=
  ⟨fun hr => absurd (viewShows_unique hr.1 h rfl) (by decide), h⟩

/-- An SRX image is found first as such in direction S: both trials see the same bytes, and neither its signature nor
its tag is that of another type (R133, R136). -/
theorem firstMatch_srx_S (h : showsSrx s .S) : FirstMatch s .S .srx := by
  have hsig := (viewShows_S_width .w16 .w8).1 h.1
  have htag := (viewShows_S_width .w16 .w8).1 h.2
  exact ⟨fun hr => absurd (viewShows_unique hr.2 htag rfl) (by decide),
    fun hj => absurd (viewShows_unique hj hsig rfl) (by decide), h⟩

/-- No two types are found first. -/
theorem firstMatch_unique {a b : RomType} (ha : FirstMatch s d a) (hb : FirstMatch s d b) : a = b := by
  cases a with
  | srjv80 =>
    cases b with
    | srjv80 => rfl
    | jp800 | srx | unknown => exact absurd ha hb.1
  | jp800 =>
    obtain ⟨hnr, hj⟩ := ha
    cases b with
    | srjv80 => exact absurd hb hnr
    | jp800 => rfl
    | srx | unknown => exact absurd hj hb.2.1
  | srx =>
    obtain ⟨hnr, hnj, hx⟩ := ha
    cases b with
    | srjv80 => exact absurd hb hnr
    | jp800 => exact absurd hb.2 hnj
    | srx => rfl
    | unknown => exact absurd hx hb.2.2
  | unknown =>
    obtain ⟨hnr, hnj, hnx⟩ := ha
    cases b with
    | srjv80 => exact absurd hb hnr
    | jp800 => exact absurd hb.2 hnj
    | srx => exact absurd hb.2.2 hnx
    | unknown => rfl

/-- The detector answers the first trial that matches, with the header of its last trial (R133). -/
theorem firstMatch_of_detect {r : Detection} (h : detect s.cfg s.len s.ib d = .ok r) :
    FirstMatch s d r.rom ∧ r = detectionOf s d r.rom := by
  have hroland8 := sigMatch_iff s.cfg s.len s.ib d .w8 sigRoland rfl
  have hsrjv := tagMatch_iff s.cfg s.len s.ib d .w8 tagSrjv80 rfl
  have hjp := sigMatch_iff s.cfg s.len s.ib d .w8 sigJp800 rfl
  have hroland16 := sigMatch_iff s.cfg s.len s.ib d .w16 sigRoland rfl
  have hsrx := tagMatch_iff s.cfg s.len s.ib d .w16 tagSrx rfl
  have hcases := detect_cases s.cfg s.len s.ib d
  rw [hroland8, hsrjv, hjp, hroland16, hsrx, h] at hcases
  rcases hcases with ⟨_, he, _⟩ | ⟨he, hm⟩ | ⟨he, hm⟩ | ⟨he, hm⟩ | ⟨he, hm⟩ <;> cases he <;> exact ⟨hm, rfl⟩

/-- On a loaded input the detector answers (R130, R195). -/
theorem exists_detect_of_loaded (hl : inputLoaded s) (d : Dir) : ∃ r, detect s.cfg s.len s.ib d = .ok r := by
  cases h : detect s.cfg s.len s.ib d with
  | ok r => exact ⟨r, rfl⟩
  | error a =>
    rcases detect_cases s.cfg s.len s.ib d with ⟨b, _, hlt, hn⟩ | ⟨he, _⟩ | ⟨he, _⟩ | ⟨he, _⟩ | ⟨he, _⟩
    · have hb := hl b hlt
      rw [hn] at hb
      cases hb
    all_goals rw [he] at h; cases h

/-- On a loaded input the detector answers the type of the first trial that matches (R133). -/
theorem detect_of_firstMatch (hl : inputLoaded s) {rom : RomType} (h : FirstMatch s d rom) :
    detect s.cfg s.len s.ib d = .ok (detectionOf s d rom) := by
  obtain ⟨r, hr⟩ := exists_detect_of_loaded hl d
  obtain ⟨hm, hform⟩ := firstMatch_of_detect hr
  rw [hr, hform, firstMatch_unique hm h]

/-- On a loaded input some type, Unknown included, is found first. -/
theorem exists_firstMatch (hl : inputLoaded s) (d : Dir) : ∃ rom, FirstMatch s d rom :=
  have ⟨r, hr⟩ := exists_detect_of_loaded hl d
  ⟨r.rom, (firstMatch_of_detect hr).1⟩

/-- In an empty buffer no trial matches (R137). -/
theorem firstMatch_unknown_of_len_zero (hlen : s.len = 0#32) : FirstMatch s d .unknown := by
  have hnone : ∀ {w off bytes}, 0 < bytes.length → ¬ viewShows s d w off bytes :=
    fun hb => not_viewShows_of_len_le hb (by simp [hlen])
  exact ⟨fun h => hnone (by decide) h.1, hnone (by decide), fun h => hnone (by decide) h.1⟩

/-- In an empty buffer every header byte is absent (R137). -/
theorem header_of_len_zero (hlen : s.len = 0#32) (w : Width) :
    header s.cfg s.len s.ib d w = List.replicate 9 .absent := by
  simp [header, headerOffsets, viewByte_absent, hlen]

/-- DETECT on a proper launch latches the first trial that matches and completes (R130). -/
theorem detectCommand_of_firstMatch (hs : bufferReady s) {rom : RomType} (h : FirstMatch s d rom) :
    detectCommand d s = .next (complete (latchDetection (detectionOf s d rom) s)) := by
  rw [detectCommand, if_neg (not_lt.2 hs.1), detect_of_firstMatch hs.2 h]

/-- A latched header shows in `DIAG0..8`, its absent bytes as 0x00 (R135). -/
theorem diagShows_of_diag {t : State} {w : Width} (h : t.diag = diagOf (header s.cfg s.len s.ib d w)) :
    diagShows s t d w := by
  intro k off hoff
  have hdiag : t.diag[k.val] = diagByte (viewByte s.cfg s.len s.ib d w off) := by
    simp only [h, diagOf_getElem, header, List.getElem?_map, hoff, Option.map_some, Option.getD_some]
  rw [hdiag]
  exact ⟨fun b hb => by rw [hb]; rfl, fun hb => by rw [hb]; rfl⟩

/-- The registers of a latched detection are the outcome of the detector (R130, R133, R135). -/
theorem detectionOutcome_of_firstMatch {rom : RomType} (h : FirstMatch s d rom) {t : State}
    (htype : t.romtype = romtypeByte rom rom.width)
    (hdiag : t.diag = diagOf (header s.cfg s.len s.ib d (lastTrial rom))) : detectionOutcome s t d := by
  have hregs := And.intro htype (diagShows_of_diag hdiag)
  cases rom with
  | srjv80 => exact ⟨fun _ => hregs, fun hn => absurd h hn, fun hn => absurd h hn, fun hn => absurd h hn⟩
  | jp800 =>
    obtain ⟨hn, hj⟩ := h
    exact ⟨fun hr => absurd hr hn, fun _ _ => hregs, fun _ hn => absurd hj hn, fun _ hn => absurd hj hn⟩
  | srx =>
    obtain ⟨hn, hnj, hx⟩ := h
    exact ⟨fun hr => absurd hr hn, fun _ hj => absurd hj hnj, fun _ _ _ => hregs, fun _ _ hn => absurd hx hn⟩
  | unknown =>
    obtain ⟨hn, hnj, hnx⟩ := h
    exact ⟨fun hr => absurd hr hn, fun _ hj => absurd hj hnj, fun _ _ hx => absurd hx hnx, fun _ _ _ => hregs⟩

/-- RUN on a proper launch that finds a type is the transform at the width of the type, after the latch (R160). -/
theorem runCommand_of_firstMatch (hs : bufferReady s) {rom : RomType} (h : FirstMatch s d rom)
    (hknown : rom ≠ .unknown) :
    runCommand d s = xformBody rom.width d (latchDetection (detectionOf s d rom) s) := by
  rw [runCommand, if_neg (not_lt.2 hs.1), detect_of_firstMatch hs.2 h]
  exact if_neg hknown

/-- A RUN that ended in DONE found a type first and transformed at its width (R160, R174). -/
theorem runCommand_done {t : State} (h : runCommand d s = .next t) (hdone : t.engine = .done) :
    ∃ rom, rom ≠ .unknown ∧ FirstMatch s d rom ∧ t.romtype = romtypeByte rom rom.width ∧
      closedLength s.cfg.tab rom.width d s.len.toNat ∧ transformed s rom.width d t.ob := by
  obtain ⟨_, r, hr, ⟨_, rfl⟩ | ⟨hknown, hx⟩⟩ := runCommand_next h
  · simp at hdone
  · obtain ⟨hm, hform⟩ := firstMatch_of_detect hr
    have hwidth := detect_width hr
    rw [hwidth] at hx
    refine ⟨r.rom, hknown, hm, ?_, xformBody_done (s := latchDetection r s) hx hdone⟩
    rw [(xformBody_frame hx).2, latchDetection_romtype, hwidth]

end

/-- The width-8 type of an image is found first in its scrambled form (R136). -/
theorem HoldsTransformOf.firstMatch_w8 {p s : State} (h : HoldsTransformOf .w8 .S p s) {rom : RomType}
    (hw : lastTrial rom = .w8) (hm : FirstMatch p .S rom) : FirstMatch s .D rom := by
  cases rom with
  | srjv80 => simpa only [FirstMatch, showsSrjv80, viewShows, h.viewByte_eq] using hm
  | jp800 => simpa only [FirstMatch, showsSrjv80, showsJp800, viewShows, h.viewByte_eq] using hm
  | srx | unknown => cases hw

/-- The width-16 trial of a scrambled SRX image matches (R136). -/
theorem HoldsTransformOf.showsSrx_iff {p s : State} (h : HoldsTransformOf .w16 .S p s) :
    showsSrx s .D ↔ showsSrx p .S := by
  simp only [showsSrx, viewShows, h.viewByte_eq]

end Sys2Proof.Machine
end

/-! The statements about the detector, settled. -/
section
namespace Sys2Proof.Proofs
open Sys2Proof.Machine Sys2Proof.Claims

/-- DETECT of each direction has its effect. -/
theorem detectEffect_detectOf (d : Dir) : detectEffect (detectOf d) d := by
  intro s hs
  obtain ⟨rom, hm⟩ := exists_firstMatch hs.2 d
  exact ⟨_, (exec_detectOf d s).trans (detectCommand_of_firstMatch hs hm),
    detectionOutcome_of_firstMatch hm rfl rfl, rfl⟩

/-- Settles O18. -/
theorem detectFindsFirstMatch : Obligations.DetectFindsFirstMatch :=
  ⟨detectEffect_detectOf .D, detectEffect_detectOf .S⟩

/-- Settles O19: the view of direction S is the image, and the named bytes fit one type only. -/
theorem detectPlaintext : Obligations.DetectPlaintext := by
  intro s hs hlen
  obtain ⟨rom, hm⟩ := exists_firstMatch hs.2 .S
  have htype : ∀ {rom'}, FirstMatch s .S rom' →
      (complete (latchDetection (detectionOf s .S rom) s)).romtype = romtypeByte rom' rom'.width :=
    fun h => by rw [firstMatch_unique h hm]; rfl
  refine ⟨_, detectCommand_of_firstMatch hs hm, fun hr ht => ?srjv80, fun hr ht => ?srx, fun hj => ?jp800,
    fun hnr hnj => ?unknown⟩
  case srjv80 => exact htype (rom' := .srjv80) ((showsSrjv80_S_iff hlen).2 ⟨hr, ht⟩)
  case srx => exact htype (firstMatch_srx_S ((showsSrx_S_iff hlen).2 ⟨hr, ht⟩))
  case jp800 => exact htype (firstMatch_jp800 ((showsJp800_S_iff hlen).2 hj))
  case unknown =>
    rw [← showsJp800_S_iff hlen] at hnj
    exact htype (rom' := .unknown)
      ⟨fun h => hnr ((showsSrjv80_S_iff hlen).1 h).1, hnj, fun h => hnr ((showsSrx_S_iff hlen).1 h).1⟩

/-- XFORM in direction D on a closed length leaves the view of direction D in `OB`. -/
theorem xformOf_D_leaves_view {s : State} (w : Width) (hs : bufferReady s)
    (hc : closedLength s.cfg.tab w .D s.len.toNat) :
    ∃ t, completesAs (xformOf w .D) s t ∧ ∀ j < s.len.toNat, ∃ b, memRead t.ob j = some b ∧
      viewByte s.cfg s.len s.ib .D w j = .present b := by
  obtain ⟨ob, hx, hob⟩ := xformBody_of_closed hs.2 hc
  have hexec : completesAs (xformOf w .D) s (complete { s with pos := s.len, ob := ob }) := by
    rw [completesAs, exec_xformOf, xform, if_neg (not_lt.2 hs.1), hx]
  exact ⟨_, hexec, fun _ => viewByte_D_of_transformed hc hob⟩

/-- Settles O20. -/
theorem viewIsTheDescrambledBuffer : Obligations.ViewIsTheDescrambledBuffer := by
  rintro s w i (⟨rfl, rfl⟩ | ⟨rfl, rfl⟩) hs hc
  · exact xformOf_D_leaves_view .w8 hs hc
  · exact xformOf_D_leaves_view .w16 hs hc

/-- Settles O21: at the width of the scrambling the detector sees the image. -/
theorem detectScrambledImage : Obligations.DetectScrambledImage := by
  intro p s hp hlen
  have hdetect : ∀ {w rom}, HoldsTransformOf w .S p s → FirstMatch s .D rom →
      ∃ t, completesAs .detectD s t ∧ t.romtype = romtypeByte rom rom.width := fun h hm =>
    ⟨_, detectCommand_of_firstMatch ⟨by rw [h.len, h.cfg]; exact hp.1, h.loaded⟩ hm, rfl⟩
  refine ⟨fun _ hout => ⟨fun hr ht => ?srjv80, fun hj => ?jp800⟩, fun _ hout hr ht hnr hnj => ?srx⟩
  case srjv80 =>
    have h : HoldsTransformOf .w8 .S p s := .of_xform hout
    exact hdetect h (h.firstMatch_w8 (rom := .srjv80) rfl ((showsSrjv80_S_iff hlen).2 ⟨hr, ht⟩))
  case jp800 =>
    have h : HoldsTransformOf .w8 .S p s := .of_xform hout
    exact hdetect h (h.firstMatch_w8 rfl (firstMatch_jp800 ((showsJp800_S_iff hlen).2 hj)))
  case srx =>
    have h : HoldsTransformOf .w16 .S p s := .of_xform hout
    exact hdetect (rom := .srx) h ⟨hnr, hnj, h.showsSrx_iff.2 ((showsSrx_S_iff hlen).2 ⟨hr, ht⟩)⟩

/-- Settles O22: every header byte is absent, so no trial matches. -/
theorem detectOnEmptyBuffer : Obligations.DetectOnEmptyBuffer := by
  intro s hlen
  have hready : bufferReady s := ⟨by simp [hlen], fun n hn => by simp [hlen] at hn⟩
  have hdetect : ∀ d, completesAs (detectOf d) s
      { s with romtype := 0x80#8, diag := #v[0#8, 0#8, 0#8, 0#8, 0#8, 0#8, 0#8, 0#8, 0#8]
               status := setStateField s.status .done } := fun d => by
    rw [completesAs, exec_detectOf, detectCommand_of_firstMatch hready (firstMatch_unknown_of_len_zero hlen),
      detectionOf, header_of_len_zero hlen]
    rfl
  intro i hi
  obtain rfl | rfl := List.mem_pair.1 hi
  · exact hdetect .D
  · exact hdetect .S

/-- Settles O38: RUN.D finds the type of the image, and the transform at its width gives the image back. -/
theorem runRoundTrip : Obligations.RunRoundTrip := by
  rintro p u s hp hu hdone ⟨u', hu', _, hib, hlen, hcfg⟩ hcoincidence
  obtain rfl : u = u' := Host.Outcome.next.inj (hu.symm.trans hu')
  obtain ⟨rom, hknown, hm, htype, hc, himage⟩ := runCommand_done hu hdone
  have h : HoldsTransformOf rom.width .S p s := ⟨hc, hib ▸ himage, hlen, hcfg⟩
  have hs : bufferReady s := ⟨by rw [hlen, hcfg]; exact hp.1, h.loaded⟩
  have hmD : FirstMatch s .D rom := by
    cases rom with
    | unknown => exact absurd rfl hknown
    | jp800 | srjv80 => exact h.firstMatch_w8 rfl hm
    | srx =>
      obtain ⟨hnr, hnj⟩ := hcoincidence (by rw [htype]; rfl)
      obtain ⟨_, _, hx⟩ := hm
      exact ⟨hnr, hnj, h.showsSrx_iff.2 hx⟩
  obtain ⟨ob, hx, hob⟩ := xformBody_of_closed (s := latchDetection (detectionOf s .D rom) s) h.loaded h.closed_back
  exact ⟨_, (runCommand_of_firstMatch hs hmD hknown).trans hx, engine_complete _, htype.symm, h.roundTrip hob⟩

end Sys2Proof.Proofs
end

/-! SUPPORT. What XFORM and RUN answer on each kind of launch, and what visiting the positions in a given order writes
(spec/43_rom_transform.md R150 to R163). -/
section
namespace Sys2Proof.Machine
open Sys2Proof.Claims

/-- A write of `STATUS.STATE` keeps the other bits of `STATUS`. -/
theorem setStateField_and_mask (st : Byte) (e : EngineState) : setStateField st e &&& 0xFC#8 = st &&& 0xFC#8 := by
  have hcode : e.code.setWidth 8 &&& 0xFC#8 = 0#8 := by cases e <;> rfl
  rw [setStateField, BitVec.and_or_distrib_right, hcode, BitVec.or_zero, BitVec.and_assoc, BitVec.and_self]

/-- The last write of `STATUS.STATE` stands. -/
theorem setStateField_setStateField (st : Byte) (e e' : EngineState) :
    setStateField (setStateField st e) e' = setStateField st e' := by
  rw [setStateField, setStateField_and_mask]
  rfl

/-- The last write of `STATUS.STATE` stands, also with a write of `STATUS.CAUSE` between the two. -/
theorem setStateField_setCauseField_setStateField (st : Byte) (e e' : EngineState) (c : Cause) :
    setStateField (setCauseField (setStateField st e) c) e' = setStateField (setCauseField st c) e' := by
  have hmask : setCauseField (setStateField st e) c &&& 0xFC#8 = setCauseField st c &&& 0xFC#8 := by
    have hswap : ∀ b : Byte, b &&& 0x0F#8 &&& 0xFC#8 = b &&& 0xFC#8 &&& 0x0F#8 := fun b => by ac_rfl
    rw [setCauseField, setCauseField, BitVec.and_or_distrib_right, BitVec.and_or_distrib_right, hswap,
      setStateField_and_mask, hswap]
  rw [setStateField, hmask]
  rfl

/-- Completing overwrites an earlier write of `STATUS.STATE`. -/
theorem complete_setEngine (e : EngineState) (s : State) : complete (s.setEngine e) = complete s := by
  rw [complete, State.setEngine, setEngine_status, setStateField_setStateField]
  rfl

/-- Raising a fault overwrites an earlier write of `STATUS.STATE`. -/
theorem raiseFault_setEngine (c : Cause) (e : EngineState) (s : State) :
    raiseFault c (s.setEngine e) = raiseFault c s := by
  rw [raiseFault_eq, setEngine_status, setStateField_setCauseField_setStateField, raiseFault_eq]
  rfl

section
variable {w : Width} {d : Dir} {s : State}

/-- XFORM with `LEN` up to `CAP` is its body (R150, R197). -/
theorem exec_xformOf_of_le_cap (h : s.len.toNat ≤ s.cfg.cap.val) : exec (xformOf w d) s = xformBody w d s := by
  rw [exec_xformOf, xform, if_neg (not_lt.2 h)]

/-- An XFORM that answers a next state ran its body (R150, R197). -/
theorem xformBody_of_exec_next {t : State} (h : exec (xformOf w d) s = .next t) : xformBody w d s = .next t := by
  rw [exec_xformOf] at h
  obtain ⟨_, he⟩ | ⟨_, he⟩ := xform_cases w d s
  · rw [he] at h
    cases h
  · rw [← he, h]

/-- On a length that is not a whole number of units the transform raises LengthFault (R156). -/
theorem xformBody_of_odd (h : s.len.toNat % w.bytes ≠ 0) : xformBody w d s = .next (raiseFault .lengthFault s) :=
  if_pos ((oddLength_iff w s.len).2 h)

/-- On length 0 the transform completes with nothing written (R155). -/
theorem xformBody_of_len_zero (h : s.len = 0#32) : xformBody w d s = .next (complete { s with pos := 0#32 }) := by
  have hodd : ¬ oddLength w 0#32 = true := by cases w <;> decide
  have hno : iterations w 0#32 = 0 := Nat.zero_div _
  rw [xformBody, h, if_neg hodd, hno, xformLoop]

/-- On a loaded input whose length is not closed the transform raises BoundsFault at the lowest position that is
permuted out of the length (R154, R175). -/
theorem xformBody_of_not_closed (hl : inputLoaded s) (hev : s.len.toNat % w.bytes = 0)
    (hc : ¬ closedLength s.cfg.tab w d s.len.toNat) :
    ∃ n, visited w s.len.toNat n ∧ s.len.toNat ≤ permutedPos s.cfg.tab w d n ∧
      (∀ m < n, m % w.bytes = 0 → permutedPos s.cfg.tab w d m < s.len.toNat) ∧
      xformBody w d s = .next (raiseFault .boundsFault
        { s with pos := BitVec.ofNat 32 n, fpos := BitVec.ofNat 32 n
                 faddr := permuteAddr s.cfg.tab w d (BitVec.ofNat 32 n) }) := by
  rcases xformBody_cases w d s with ⟨hodd, _⟩ | ⟨_, ⟨ob', _, hw⟩ | ⟨n, hn, hle, hbefore, he⟩ | ⟨n, e, hn, hr, _⟩⟩
  · exact absurd hev hodd
  · exact absurd (hw.closedLength hev) hc
  · exact ⟨n, hn, hle, fun m hm ha => (hbefore m hm ha).1, he⟩
  · obtain ⟨v, hv⟩ := exists_readUnit_of_loaded hl hev hn
    rw [hv] at hr
    cases hr

/-- The transform does not see `STATUS.STATE`, and overwrites it at its end (R150, R178). -/
theorem xformBody_setEngine (e : EngineState) : xformBody w d (s.setEngine e) = xformBody w d s := by
  cases hodd : oddLength w s.len with
  | true => simp only [xformBody, setEngine_len, hodd, if_true, raiseFault_setEngine]
  | false =>
    simp only [xformBody, setEngine_cfg, setEngine_len, setEngine_ib, setEngine_ob, hodd, Bool.false_eq_true, if_false]
    cases xformLoop s.cfg w d s.len s.ib (iterations w s.len) 0#32 s.ob with
    | completed pos ob => exact congrArg _ (complete_setEngine e { s with pos := pos, ob := ob })
    | outOfBounds i a =>
      exact congrArg _ (raiseFault_setEngine .boundsFault e { s with pos := i, fpos := i, faddr := a })
    | unwritten a => rfl

/-- A completed transform keeps the canonical form of `OB`. -/
theorem xformBody_done_keeps_wf {t : State} (h : xformBody w d s = .next t) (hdone : t.engine = .done)
    (hwf : s.ob.wf = true) : t.ob.wf = true := by
  rcases xformBody_next h with ⟨_, rfl⟩ | ⟨_, ob', rfl, hw⟩ | ⟨_, _, _, _, rfl⟩
  · simp at hdone
  · exact hw.keepsWf hwf
  · simp at hdone

/-- The units of a closed length and the bytes above it determine the transformed buffer (R157, R163). -/
theorem memRead_eq_of_same_units {ob ob' : Memory} (hc : closedLength s.cfg.tab w d s.len.toNat)
    (hob : transformed s w d ob)
    (hunits : ∀ n, visited w s.len.toNat n → ∀ v, readUnit s.cfg.wordOrder s.ib n w = .ok v →
      readUnit s.cfg.wordOrder ob' (permutedPos s.cfg.tab w d n) w = .ok (permuteData s.cfg.tab w d v))
    (habove : ∀ a, s.len.toNat ≤ a → memRead ob' a = memRead s.ob a) (a : Nat) : memRead ob' a = memRead ob a := by
  obtain ⟨hplaced, _, hkept⟩ := hob
  rcases lt_or_ge a s.len.toNat with ha | ha
  · obtain ⟨n, hn, he⟩ := exists_visited_permutedPos_eq s.len.isLt.le hc (visited_unitStart ha)
    obtain ⟨v, hv, hout⟩ := hplaced n hn
    have hout' := hunits n hn v hv
    rw [he] at hout hout'
    rw [memRead_of_readUnit hout, memRead_of_readUnit hout']
  · rw [habove a ha, hkept a ha]

end

/-- A written unit reads back (R53). -/
theorem readUnit_writeUnit_same (o : WordOrder) (m : Memory) (a : Nat) (w : Width) (v : BitVec w.bits) :
    readUnit o (writeUnit o m a w v) a w = .ok v := by
  rw [readUnit_ok_iff]
  intro j hj
  rw [memRead_writeUnit, if_pos ⟨Nat.le_add_right .., Nat.add_lt_add_left hj a⟩, Nat.add_sub_cancel_left]

/-- What visiting the positions `ns` in any order has made of `ob`: the permuted unit of each position stands at its
permuted address, and no other byte was touched (R163). -/
structure VisitsWrote (c : Config) (w : Width) (d : Dir) (ib : Memory) (ns : List Nat) (ob ob' : Memory) : Prop where
  placed : ∀ n ∈ ns, ∀ v, readUnit c.wordOrder ib n w = .ok v →
    readUnit c.wordOrder ob' (permutedPos c.tab w d n) w = .ok (permuteData c.tab w d v)
  untouched : ∀ x, (∀ n ∈ ns, ¬ inUnit c.tab w d n x) → memRead ob' x = memRead ob x
  keepsWf : ob.wf = true → ob'.wf = true

section
variable {c : Config} {w : Width} {d : Dir} {len : Word} {ib : Memory}

/-- A first visit writes its unit, and the later ones leave it alone: no two units share a byte (R66, R163). -/
theorem VisitsWrote.cons {n : Nat} {ns : List Nat} {v : BitVec w.bits} {ob ob' : Memory}
    (hpos : ∀ m ∈ n :: ns, m < 2 ^ 32 ∧ m % w.bytes = 0) (hnew : n ∉ ns) (hv : readUnit c.wordOrder ib n w = .ok v)
    (h : VisitsWrote c w d ib ns
      (writeUnit c.wordOrder ob (permutedPos c.tab w d n) w (permuteData c.tab w d v)) ob') :
    VisitsWrote c w d ib (n :: ns) ob ob' where
  placed := by
    intro m hm u hu
    obtain rfl | hm := List.mem_cons.1 hm
    · obtain rfl : v = u := Except.ok.inj (hv.symm.trans hu)
      obtain ⟨hlt, ha⟩ := hpos m List.mem_cons_self
      rw [readUnit_ok_iff]
      intro j hj
      rw [h.untouched]
      · exact (readUnit_ok_iff ..).1 (readUnit_writeUnit_same ..) j hj
      · intro l hl hin
        obtain ⟨hllt, hla⟩ := hpos l (List.mem_cons_of_mem _ hl)
        have heq := inUnit_unique c w d hllt hlt hla ha hin ⟨Nat.le_add_right .., Nat.add_lt_add_left hj _⟩
        exact hnew (heq ▸ hl)
    · exact h.placed m hm u hu
  untouched := by
    intro x hx
    rw [h.untouched x fun m hm => hx m (List.mem_cons_of_mem _ hm), memRead_writeUnit,
      if_neg (hx n List.mem_cons_self)]
  keepsWf hwf := h.keepsWf (wf_writeUnit _ _ _ _ _ hwf)

/-- Visits of positions in bounds write no byte at or above a whole number of units (R157, R163). -/
theorem VisitsWrote.memRead_of_ge {ns : List Nat} {ob ob' : Memory} (h : VisitsWrote c w d ib ns ob ob')
    (hlen : len.toNat % w.bytes = 0) (hvis : ∀ n ∈ ns, visited w len.toNat n)
    (hbound : ∀ n ∈ ns, permutedPos c.tab w d n < len.toNat) {x : Nat} (hx : len.toNat ≤ x) :
    memRead ob' x = memRead ob x := by
  refine h.untouched x fun n hn hin => ?_
  obtain ⟨hlt, ha⟩ := hvis n hn
  exact absurd (lt_of_inUnit c hlen (hlt.trans len.isLt) ha (hbound n hn) hin) (not_lt.2 hx)

/-- Visits in any order write when every position is in bounds and readable (R163). -/
theorem exists_visitInOrder : ∀ (ns : List Nat) (ob : Memory), ns.Nodup → (∀ n ∈ ns, visited w len.toNat n) →
    (∀ n ∈ ns, permutedPos c.tab w d n < len.toNat) → (∀ n ∈ ns, ∃ v, readUnit c.wordOrder ib n w = .ok v) →
    ∃ ob', visitInOrder c w d len ib ns ob = some ob' ∧ VisitsWrote c w d ib ns ob ob'
  | [], ob, _, _, _, _ => ⟨ob, rfl, fun _ hn => absurd hn List.not_mem_nil, fun _ _ => rfl, id⟩
  | n :: ns, ob, hnodup, hvis, hbound, hread => by
    obtain ⟨hnew, hnodup⟩ := List.nodup_cons.1 hnodup
    have hpos : ∀ m ∈ n :: ns, m < 2 ^ 32 ∧ m % w.bytes = 0 := fun m hm =>
      ⟨(hvis m hm).1.trans len.isLt, (hvis m hm).2⟩
    obtain ⟨v, hv⟩ := hread n List.mem_cons_self
    have hvisit : visit c w d len ib (BitVec.ofNat 32 n) ob =
        .wrote (writeUnit c.wordOrder ob (permutedPos c.tab w d n) w (permuteData c.tab w d v)) :=
      (visit_wrote_iff ..).2 ⟨BitVec.lt_def.2 (hbound n List.mem_cons_self), v,
        by rwa [toNat_ofNat_lt (hpos n List.mem_cons_self).1], rfl⟩
    rw [List.forall_mem_cons] at hvis hbound hread
    obtain ⟨ob', he, hw⟩ := exists_visitInOrder ns
      (writeUnit c.wordOrder ob (permutedPos c.tab w d n) w (permuteData c.tab w d v)) hnodup hvis.2 hbound.2 hread.2
    exact ⟨ob', by rw [visitInOrder, hvisit]; exact he, hw.cons hpos hnew hv⟩

end

section
variable {s : State} {d : Dir}

/-- RUN on a proper launch that finds no type is a FormatError after the latch (R160, R174). -/
theorem runCommand_of_unknown (hs : bufferReady s) (h : FirstMatch s d .unknown) :
    runCommand d s = .next (raiseFault .formatError (latchDetection (detectionOf s d .unknown) s)) := by
  rw [runCommand, if_neg (not_lt.2 hs.1), detect_of_firstMatch hs.2 h]
  rfl

/-- An image of a width has a type of that width that is found first (R133). -/
theorem exists_firstMatch_of_width {w : Width} (h8 : w = .w8 → showsSrjv80 s d ∨ showsJp800 s d)
    (h16 : w = .w16 → ¬ showsSrjv80 s d ∧ ¬ showsJp800 s d ∧ showsSrx s d) :
    ∃ rom, rom ≠ RomType.unknown ∧ rom.width = w ∧ FirstMatch s d rom := by
  cases w with
  | w8 =>
    obtain hr | hj := h8 rfl
    · exact ⟨.srjv80, by decide, rfl, hr⟩
    · exact ⟨.jp800, by decide, rfl, firstMatch_jp800 hj⟩
  | w16 => exact ⟨.srx, by decide, rfl, h16 rfl⟩

/-- An empty buffer is a proper launch (R155, R193). -/
theorem bufferReady_of_len_zero (h : s.len = 0#32) : bufferReady s := by
  simp [bufferReady, inputLoaded, h]

end

end Sys2Proof.Machine
end

/-! The statements about XFORM and RUN, settled. -/
section
namespace Sys2Proof.Proofs
open Sys2Proof.Machine Sys2Proof.Claims

/-- XFORM of each width and direction has its effect on a closed length. -/
theorem xformEffect_xformOf (w : Width) (d : Dir) : xformEffect (xformOf w d) w d := by
  intro s hs hc
  obtain ⟨ob', hx, hob⟩ := xformBody_of_closed hs.2 hc
  exact ⟨ob', (exec_xformOf_of_le_cap hs.1).trans hx, hob⟩

/-- Settles O23. -/
theorem xformTransformsClosedLength : Obligations.XformTransformsClosedLength :=
  ⟨xformEffect_xformOf .w8 .D, xformEffect_xformOf .w16 .D, xformEffect_xformOf .w8 .S, xformEffect_xformOf .w16 .S⟩

/-- Settles O24: the length of a completed transform was closed, so every unit has a position it comes from. -/
theorem xformGatherForm : Obligations.XformGatherForm := by
  intro s t w d h hdone j hj
  obtain ⟨hc, hob⟩ := xformBody_done (xformBody_of_exec_next h) hdone
  exact transformed_gather hc hob hj

/-- XFORM of each width and direction faults on a length that is not closed. -/
theorem xformBoundsFault_xformOf (w : Width) (d : Dir) : xformBoundsFault (xformOf w d) w d := by
  intro s hs hev hc
  obtain ⟨n, hn, hout, hlowest, hx⟩ := xformBody_of_not_closed hs.2 hev hc
  exact ⟨n, hn, hout, hlowest, (exec_xformOf_of_le_cap hs.1).trans hx⟩

/-- Settles O25. -/
theorem xformBoundsFaults : Obligations.XformBoundsFaults :=
  ⟨xformBoundsFault_xformOf .w8 .D, xformBoundsFault_xformOf .w16 .D, xformBoundsFault_xformOf .w8 .S,
    xformBoundsFault_xformOf .w16 .S⟩

/-- Settles O28: the way back is closed too, and undoes both permutations. -/
theorem transformRoundTrip : Obligations.TransformRoundTrip := by
  intro p s w d hp _ hout
  have h : HoldsTransformOf w d p s := .of_xform hout
  have hcap : s.len.toNat ≤ s.cfg.cap.val := by
    rw [h.len, h.cfg]
    exact hp.1
  obtain ⟨ob, hx, hob⟩ := xformBody_of_closed h.loaded h.closed_back
  exact ⟨_, (exec_xformOf_of_le_cap hcap).trans hx, engine_complete _, h.roundTrip hob⟩

/-- Settles O29: no two units share a byte, so the order of the visits leaves no trace. -/
theorem visitingOrderIrrelevant : Obligations.VisitingOrderIrrelevant := by
  intro s t w d order hwf h hdone hperm
  have hbody := xformBody_of_exec_next h
  obtain ⟨hc, hob⟩ := xformBody_done hbody hdone
  have hmem : ∀ n, n ∈ order ↔ visited w s.len.toNat n := fun n => by simp [hperm.mem_iff]
  have hvis : ∀ n ∈ order, visited w s.len.toNat n := fun n => (hmem n).1
  have hbound : ∀ n ∈ order, permutedPos s.cfg.tab w d n < s.len.toNat := fun n hn =>
    (visited_permutedPos s.len.isLt.le hc (hvis n hn)).1
  have hread : ∀ n ∈ order, ∃ v, readUnit s.cfg.wordOrder s.ib n w = .ok v := fun n hn =>
    have ⟨v, hv, _⟩ := hob.1 n (hvis n hn)
    ⟨v, hv⟩
  obtain ⟨ob', he, hw⟩ :=
    exists_visitInOrder order s.ob (hperm.nodup_iff.2 (List.nodup_range.filter _)) hvis hbound hread
  have hsame : ob' = t.ob :=
    memory_ext _ _ (hw.keepsWf hwf) (xformBody_done_keeps_wf hbody hdone hwf)
      (memRead_eq_of_same_units hc hob (fun n hn => hw.placed n ((hmem n).2 hn))
        fun _ => hw.memRead_of_ge hc.1 hvis hbound)
  rw [he, hsame]

/-- Settles O30: no address leaves its block. -/
theorem blockMultiplesAreClosed : Obligations.BlockMultiplesAreClosed := by
  intro c w d m hm
  have haligned : w.bytes ∣ 2 ^ addrSpan w := by cases w <;> decide
  refine ⟨Nat.mod_eq_zero_of_dvd (haligned.mul_left m), fun n hn _ => ?_⟩
  rwa [permuteAddr_lt_blocks_iff, toNat_ofNat_lt (hn.trans hm)]

/-- Settles O31. -/
theorem closedInBothDirections : Obligations.ClosedInBothDirections := fun _ _ _ hL =>
  ⟨⟨closedLength_inv hL.le, closedLength_inv hL.le⟩, fun _ hc _ => exists_visited_permutedPos_eq hL.le hc⟩

/-- RUN of each direction has its effect on an image of closed length. -/
theorem runEffect_runOf (d : Dir) : runEffect (runOf d) d := by
  intro s w hs h8 h16 hc
  obtain ⟨rom, hknown, rfl, hm⟩ := exists_firstMatch_of_width h8 h16
  obtain ⟨ob', hx, hob⟩ := xformBody_of_closed (s := latchDetection (detectionOf s d rom) s) hs.2 hc
  exact ⟨_, (exec_runOf d s).trans ((runCommand_of_firstMatch hs hm hknown).trans hx),
    detectionOutcome_of_firstMatch hm rfl rfl, hob, rfl⟩

/-- Settles O35. -/
theorem runDetectsAndTransforms : Obligations.RunDetectsAndTransforms := ⟨runEffect_runOf .D, runEffect_runOf .S⟩

/-- RUN of each direction ends in FormatError when no trial matches. -/
theorem runFormatError_runOf (d : Dir) : runFormatError (runOf d) d := by
  intro s hs hnr hnj hnx
  have hm : FirstMatch s d .unknown := ⟨hnr, hnj, hnx⟩
  obtain ⟨_, _, _, hnone⟩ :
      detectionOutcome s (raiseFault .formatError (latchDetection (detectionOf s d .unknown) s)) d :=
    detectionOutcome_of_firstMatch hm rfl rfl
  obtain ⟨htype, hdiag⟩ := hnone hnr hnj hnx
  exact ⟨_, (exec_runOf d s).trans (runCommand_of_unknown hs hm), htype, hdiag, rfl⟩

/-- Settles O36. -/
theorem runFormatErrors : Obligations.RunFormatErrors := ⟨runFormatError_runOf .D, runFormatError_runOf .S⟩

/-- RUN of each direction is DETECT and then XFORM: the transform does not see that DETECT ended in DONE. -/
theorem runIsDetectThenXform_runOf (d : Dir) {x : Width → Instr} (hx : ∀ w, x w = xformOf w d) :
    runIsDetectThenXform (runOf d) (detectOf d) x := by
  intro s u hu hknown
  rw [completesAs, exec_detectOf] at hu
  obtain ⟨hcap, r, hr, rfl⟩ := detectCommand_next hu
  rw [complete_romtype, latchDetection_romtype, romtypeType_romtypeByte] at hknown
  calc exec (runOf d) s
      = xformBody r.width d (latchDetection r s) := by
        rw [exec_runOf, runCommand, if_neg (not_lt.2 hcap), hr]
        exact if_neg hknown
    _ = xformBody r.width d (complete (latchDetection r s)) := (xformBody_setEngine .done).symm
    _ = exec (x (romtypeWidth (complete (latchDetection r s)).romtype)) (complete (latchDetection r s)) := by
        rw [hx, complete_romtype, latchDetection_romtype, romtypeWidth_romtypeByte]
        exact (exec_xformOf_of_le_cap (s := complete (latchDetection r s)) hcap).symm

/-- Settles O37. -/
theorem runIsDetectThenXform : Obligations.RunIsDetectThenXform :=
  ⟨runIsDetectThenXform_runOf .D fun w => by cases w <;> rfl,
    runIsDetectThenXform_runOf .S fun w => by cases w <;> rfl⟩

/-- XFORM of width 16 raises LengthFault on an odd length in each direction. -/
theorem oddLengthFault_xformOf (d : Dir) : oddLengthFault (xformOf .w16 d) := by
  intro s hcap hodd
  exact (exec_xformOf_of_le_cap hcap).trans (xformBody_of_odd (w := .w16) (by simp [hodd]))

/-- Settles O26. -/
theorem xformOddLengthFaults : Obligations.XformOddLengthFaults := ⟨oddLengthFault_xformOf .D, oddLengthFault_xformOf .S⟩

/-- XFORM of each width and direction has nothing to do on length 0. -/
theorem emptyTransform_xformOf (w : Width) (d : Dir) : emptyTransform (xformOf w d) := fun _ h =>
  (exec_xformOf_of_le_cap (bufferReady_of_len_zero h).1).trans (xformBody_of_len_zero h)

/-- RUN of each direction finds no type on length 0. -/
theorem runOf_of_len_zero (d : Dir) {s : State} (h : s.len = 0#32) :
    ∃ t, completesAs (runOf d) s t ∧ t.engine = .fault ∧ causeField t.status = Cause.formatError.code ∧
      t.ob = s.ob :=
  ⟨_, (exec_runOf d s).trans (runCommand_of_unknown (bufferReady_of_len_zero h) (firstMatch_unknown_of_len_zero h)),
    engine_raiseFault .., by simp, rfl⟩

/-- Settles O27. -/
theorem emptyBufferCommands : Obligations.EmptyBufferCommands := by
  refine ⟨emptyTransform_xformOf .w8 .D, emptyTransform_xformOf .w16 .D, emptyTransform_xformOf .w8 .S,
    emptyTransform_xformOf .w16 .S, fun s h i hi => ?_⟩
  obtain rfl | rfl := List.mem_pair.1 hi
  · exact runOf_of_len_zero .D h
  · exact runOf_of_len_zero .S h

end Sys2Proof.Proofs
end

/-! SUPPORT. What takes place when the engine does not execute: nothing, or the host's oldest action, which in FAULT
reaches only `IB` and the host's latch (spec/60_exceptions.md R180; spec/70_reset_and_hazards.md R187, R191). -/
section
namespace Sys2Proof.Machine
variable {s t : State} {e : HostEvent}

/-- With nothing pending, an engine that is not BUSY has nothing to do (R187, R191). -/
theorem step_of_host_nil (hb : s.engine ≠ .busy) (hh : s.host = []) : step s = .next s := by
  rcases step_cases s with ⟨hbusy, _⟩ | ⟨_, _, hs⟩ | ⟨_, _, hcons, _⟩
  · exact absurd hbusy hb
  · exact hs
  · simp [hh] at hcons

/-- In FAULT a register write of any index is ignored (R180). -/
theorem hostAct_writeReg_of_fault (hf : s.engine = .fault) (i : Nat) (v : Word) :
    hostAct (.writeReg i v) s = .next s := by
  simp [hostAct, hostWriteReg, hf]

/-- In FAULT no host action but reset changes any other part of the state than these (R180). -/
theorem hostAct_changes_only_of_fault (hf : s.engine = .fault) (he : e ≠ .reset) (h : hostAct e s = .next t) :
    t = { s with ib := t.ib, rdata := t.rdata } := by
  rcases hostAct_next h with ⟨_, _, _, hready, _⟩ | ⟨_, _, _, _, rfl⟩ | ⟨_, _, _, _, _, rfl⟩ |
    ⟨_, _, hdraws, _, _, _, rfl⟩ | ⟨hreset, _⟩
  · simp [hf] at hready
  · rfl
  · rfl
  · rw [hdraws (by simp [hf])]
  · exact absurd hreset he

/-- Outside reset only a write of `IB` changes `IB` (R38, R180). -/
theorem hostAct_ib (he : e ≠ .reset) (hw : ∀ a b, e ≠ .writeIB a b) (h : hostAct e s = .next t) : t.ib = s.ib := by
  rcases hostAct_next h with ⟨i, v, _, _, rfl⟩ | ⟨_, _, _, _, rfl⟩ | ⟨a, b, hwrite, _⟩ |
    ⟨_, _, _, _, _, _, rfl⟩ | ⟨hreset, _⟩
  · rcases regWriteReady_cases i v s with ⟨_, hr⟩ | ⟨_, hr⟩ | ⟨_, hr⟩ | hr <;> simp [hr]
  · rfl
  · exact absurd hwrite (hw a b)
  · rfl
  · exact absurd hreset he

end Sys2Proof.Machine
end

/-! The statements about FAULT and the engine at rest, settled. -/
section
namespace Sys2Proof.Proofs
open Sys2Proof.Machine

/-- Settles O49: in FAULT the engine does not move, and the host's oldest action, if any, keeps all but `IB` and its
latch. -/
theorem faultIsSticky : Obligations.FaultIsSticky := by
  intro s t hf hreset h
  have hb : s.engine ≠ .busy := by simp [hf]
  suffices hkeep : t = { s with ib := t.ib, host := t.host, rdata := t.rdata } ∧
      ((∀ a b rest, s.host ≠ .writeIB a b :: rest) → t.ib = s.ib) from
    ⟨(congrArg State.engine hkeep.1).trans hf, hkeep⟩
  cases hh : s.host with
  | nil =>
    rw [step_of_host_nil hb hh] at h
    cases h
    exact ⟨rfl, fun _ => rfl⟩
  | cons e rest =>
    rw [step_of_host_of_not_busy hb hh] at h
    have he : e ≠ .reset := by
      rintro rfl
      exact hreset rest hh
    refine ⟨?_, fun hw => hostAct_ib (s := { s with host := rest }) he (fun a b hab => hw a b rest (by rw [hab])) h⟩
    rw [hostAct_changes_only_of_fault (s := { s with host := rest }) hf he h]

/-- Settles O50. -/
theorem faultIgnoresRegisterWrites : Obligations.FaultIgnoresRegisterWrites := by
  intro s rest i hf
  have hb : s.engine ≠ .busy := by simp [hf]
  refine ⟨fun v hh => ?_, step_readReg_of_not_busy hb⟩
  rw [step_of_host_of_not_busy hb hh]
  exact hostAct_writeReg_of_fault (s := { s with host := rest }) hf i v

/-- Settles O53. -/
theorem idleEngineKeepsState : Obligations.IdleEngineKeepsState := fun _ => step_of_host_nil

end Sys2Proof.Proofs
end

/-! SUPPORT. What has no meaning and is refused: a length above the capacity (spec/70_reset_and_hazards.md R197), a byte
of `IB` without a value (R195), a host write while BUSY (R198, R199). -/
section
namespace Sys2Proof.Machine
open Sys2Proof.Claims

section
variable {w : Width} {d : Dir} {s : State} (h : s.cfg.cap.val < s.len.toNat)
include h

/-- DETECT refuses a length above the capacity (R197). -/
theorem detectCommand_of_cap_lt : detectCommand d s = .refused .lengthAboveCapacity := if_pos h

/-- XFORM refuses a length above the capacity (R197). -/
theorem xform_of_cap_lt : xform w d s = .refused .lengthAboveCapacity := if_pos h

/-- RUN refuses a length above the capacity (R197). -/
theorem runCommand_of_cap_lt : runCommand d s = .refused .lengthAboveCapacity := if_pos h

end

/-- A unit with a byte that holds no value is not readable (R53, R195). -/
theorem exists_readUnit_error (o : WordOrder) {m : Memory} {a k : Nat} {w : Width} (hk : k < w.bytes)
    (hn : memRead m (a + k) = none) : ∃ e, readUnit o m a w = .error e := by
  cases hr : readUnit o m a w with
  | error e => exact ⟨e, rfl⟩
  | ok v =>
    rw [(readUnit_ok_iff ..).1 hr k hk] at hn
    cases hn

/-- A unit of a visited position lies below a length of whole units (R53, R55). -/
theorem visited_add_bytes_le {w : Width} {L n : Nat} (hL : L % w.bytes = 0) (hn : visited w L n) : n + w.bytes ≤ L := by
  obtain ⟨hlt, ha⟩ := hn
  cases w <;> simp only [Width.bytes] at * <;> omega

section
variable {w : Width} {d : Dir} {s : State}

/-- A completed loop over the whole length read every byte of the input (R150). -/
theorem LoopWrote.inputLoaded {ob ob' : Memory} (hev : s.len.toNat % w.bytes = 0)
    (hw : LoopWrote s.cfg w d s.len s.ib 0 (iterations w s.len) ob ob') : inputLoaded s := by
  intro a ha
  have hit := iterations_mul w s.len hev
  obtain ⟨hlt, haligned⟩ := visited_unitStart (w := w) ha
  obtain ⟨v, hv⟩ := hw.readable _ (Nat.zero_le _) (by omega) haligned
  rw [memRead_of_readUnit hv, Option.isSome_some]

/-- On a closed length whose input is not wholly loaded the transform is refused, and the refusal names a byte below
`LEN` that holds no value (R195). -/
theorem xformBody_of_unloaded (hc : closedLength s.cfg.tab w d s.len.toNat) (hl : ¬ inputLoaded s) :
    ∃ a < s.len.toNat, memRead s.ib a = none ∧ xformBody w d s = .refused (.inputByteWithoutValue a) := by
  rcases xformBody_cases w d s with ⟨hodd, _⟩ | ⟨hev, ⟨_, _, hw⟩ | ⟨m, hm, hle, _⟩ | ⟨m, e, hm, hr, _, _, he⟩⟩
  · exact absurd hc.1 hodd
  · exact absurd (hw.inputLoaded hev) hl
  · exact absurd (hc.2 m hm.1 hm.2) (not_lt.2 hle)
  · obtain ⟨k, hk, rfl, hn⟩ := readUnit_error hr
    exact ⟨m + k, (Nat.add_lt_add_left hk m).trans_le (visited_add_bytes_le hev hm), hn, he⟩

end

/-- In direction S the view needs the byte of `IB` at the offset (R131, R195). -/
theorem viewByte_S_of_none (c : Config) {len : Word} {ib : Memory} (w : Width) {j : Nat} (hj : j < len.toNat)
    (hn : memRead ib j = none) : viewByte c len ib .S w j = .unwritten j := by
  simp [viewByte, hj, hn]

/-- In direction D the view needs the whole unit that the descrambling would put at the offset (R131, R195). -/
theorem viewByte_D_of_readUnit_error {c : Config} {len : Word} {ib : Memory} {w : Width} {j e : Nat}
    (hj : j < len.toNat) (hend : permutedPos c.tab w .S (j - j % w.bytes) + w.bytes ≤ len.toNat)
    (hr : readUnit c.wordOrder ib (permutedPos c.tab w .S (j - j % w.bytes)) w = .error e) :
    viewByte c len ib .D w j = .unwritten e := by
  cases w with
  | w8 =>
    simp only [Width.bytes, Nat.mod_one, Nat.sub_zero] at hend hr
    obtain ⟨k, hk, rfl, hn⟩ := readUnit_error hr
    obtain rfl : k = 0 := Nat.lt_one_iff.1 hk
    rw [Nat.add_zero] at hn
    simp [viewByte, hj, show permutedPos c.tab .w8 .S j < len.toNat by omega, hn]
  | w16 =>
    simp only [Width.bytes] at hend hr
    rw [permutedPos, ← ofNat_and_even] at hend hr
    simp [viewByte, hj, show _ + 1 < len.toNat from hend, hr]

section
variable {s : State} {d : Dir} {w : Width}

/-- In direction D a view byte over a unit with a byte that holds no value cannot be computed (R131, R195). -/
theorem exists_viewByte_D_unwritten {j k : Nat} (hj : j < s.len.toNat)
    (hend : permutedPos s.cfg.tab w .S (j - j % w.bytes) + w.bytes ≤ s.len.toNat) (hk : k < w.bytes)
    (hn : memRead s.ib (permutedPos s.cfg.tab w .S (j - j % w.bytes) + k) = none) :
    ∃ a, viewByte s.cfg s.len s.ib .D w j = .unwritten a :=
  have ⟨e, hr⟩ := exists_readUnit_error s.cfg.wordOrder hk hn
  ⟨e, viewByte_D_of_readUnit_error hj hend hr⟩

/-- A header byte that a trial reads and that holds no value is a hole of the trial's header (R132, R195). -/
theorem headerHole_of_unloaded (h : headerByteUnloaded s d w) :
    headerHole (header s.cfg s.len s.ib d w) ≠ none := by
  obtain ⟨j, hoff, hj, hu⟩ := h
  suffices hview : ∃ a, viewByte s.cfg s.len s.ib d w j = .unwritten a by
    obtain ⟨a, ha⟩ := hview
    exact fun hnone => headerHole_none.1 hnone a (List.mem_map.2 ⟨j, hoff, ha⟩)
  cases d with
  | S => exact ⟨j, viewByte_S_of_none s.cfg w hj hu⟩
  | D =>
    cases w with
    | w8 =>
      obtain ⟨hlt, hn⟩ := hu
      refine exists_viewByte_D_unwritten (k := 0) hj ?_ (by decide) ?_ <;> simpa [Nat.mod_one]
    | w16 =>
      obtain ⟨hlt, hlow | hhigh⟩ := hu
      · exact exists_viewByte_D_unwritten (k := 0) hj hlt (by decide) hlow
      · exact exists_viewByte_D_unwritten (k := 1) hj hlt (by decide) hhigh

/-- A type that the width-8 trial finds is found without a width-16 trial (R133). -/
theorem lastTrial_of_trial8 {h : List ViewByte} {r : Detection} (ht : trial8 h = some r) : lastTrial r.rom = .w8 := by
  simp only [trial8] at ht
  split at ht
  next => cases ht; rfl
  next =>
    split at ht
    next => cases ht; rfl
    next => cases ht

/-- A detection with an outcome met no hole in the header of any trial it made (R133, R195). -/
theorem headerHole_of_detect {r : Detection} (h : detect s.cfg s.len s.ib d = .ok r) :
    headerHole (header s.cfg s.len s.ib d .w8) = none ∧
      (lastTrial r.rom = .w16 → headerHole (header s.cfg s.len s.ib d .w16) = none) := by
  cases h8 : headerHole (header s.cfg s.len s.ib d .w8) with
  | some a => simp [detect, h8] at h
  | none =>
    refine ⟨rfl, fun hlast => ?_⟩
    cases ht : trial8 (header s.cfg s.len s.ib d .w8) with
    | some r' =>
      obtain rfl : r' = r := by simpa [detect, h8, ht] using h
      rw [lastTrial_of_trial8 ht] at hlast
      cases hlast
    | none =>
      cases h16 : headerHole (header s.cfg s.len s.ib d .w16) with
      | some a => simp [detect, h8, ht, h16] at h
      | none => rfl

/-- A detection without an outcome names a byte of `IB` below `LEN` that holds no value (R195). -/
theorem detect_error {a : Nat} (h : detect s.cfg s.len s.ib d = .error a) :
    a < s.len.toNat ∧ memRead s.ib a = none := by
  rcases detect_cases s.cfg s.len s.ib d with ⟨b, he, hb⟩ | ⟨he, _⟩ | ⟨he, _⟩ | ⟨he, _⟩ | ⟨he, _⟩ <;>
    rw [he] at h <;> cases h
  exact hb

/-- Where the width-8 trial finds no type, the width-16 trial is the last (R133). -/
theorem lastTrial_of_firstMatch {rom : RomType} (h : FirstMatch s d rom) (hnr : ¬ showsSrjv80 s d)
    (hnj : ¬ showsJp800 s d) : lastTrial rom = .w16 := by
  cases rom with
  | srjv80 => exact absurd h hnr
  | jp800 => exact absurd h.2 hnj
  | srx | unknown => rfl

/-- A detection has no outcome when a header byte that one of its trials reads holds no value (R133, R195). -/
theorem exists_detect_error (h : headerByteUnloaded s d .w8 ∨
      (¬ showsSrjv80 s d ∧ ¬ showsJp800 s d ∧ headerByteUnloaded s d .w16)) :
    ∃ a, detect s.cfg s.len s.ib d = .error a := by
  cases hdet : detect s.cfg s.len s.ib d with
  | error a => exact ⟨a, rfl⟩
  | ok r =>
    obtain ⟨h8, h16⟩ := headerHole_of_detect hdet
    rcases h with hu | ⟨hnr, hnj, hu⟩
    · exact absurd h8 (headerHole_of_unloaded hu)
    · obtain ⟨hm, _⟩ := firstMatch_of_detect hdet
      exact absurd (h16 (lastTrial_of_firstMatch hm hnr hnj)) (headerHole_of_unloaded hu)

/-- DETECT is refused where the detection has no outcome (R195). -/
theorem detectCommand_of_detect_error (hcap : s.len.toNat ≤ s.cfg.cap.val) {a : Nat}
    (h : detect s.cfg s.len s.ib d = .error a) : detectCommand d s = .refused (.inputByteWithoutValue a) := by
  rw [detectCommand, if_neg (not_lt.2 hcap), h]

/-- RUN is refused where the detection has no outcome (R195). -/
theorem runCommand_of_detect_error (hcap : s.len.toNat ≤ s.cfg.cap.val) {a : Nat}
    (h : detect s.cfg s.len s.ib d = .error a) : runCommand d s = .refused (.inputByteWithoutValue a) := by
  rw [runCommand, if_neg (not_lt.2 hcap), h]

/-- While BUSY the write of a register a host can write outside a command is refused (R198). -/
theorem hostAct_writeReg_of_busy_refused (hb : s.engine = .busy) {i : Nat} (hi : isWritableReg i = true) (v : Word) :
    hostAct (.writeReg i v) s = .refused (.registerWriteWhileBusy i) := by
  simp [hostAct, hostWriteReg, hb, hi]

/-- While BUSY the write of a byte of `IB` is refused (R199). -/
theorem hostAct_writeIB_of_busy (hb : s.engine = .busy) {a : Word} (ha : a.toNat < s.cfg.cap.val) (b : Byte) :
    hostAct (.writeIB a b) s = .refused (.inputWriteWhileBusy a) := by
  simp [hostAct, hostWriteIB, hb, ha]

end

end Sys2Proof.Machine
end

/-! The statements about reset and what has no meaning, settled. -/
section
namespace Sys2Proof.Proofs
open Sys2Proof.Machine Sys2Proof.Claims

/-- XFORM of each width and direction is refused on an input that is not wholly loaded. -/
theorem xformUnloaded_xformOf (w : Width) (d : Dir) : xformUnloaded (xformOf w d) w d := by
  intro s hcap hc hl
  rw [exec_xformOf_of_le_cap hcap]
  exact xformBody_of_unloaded hc hl

/-- Settles O32: a completed loop has read every byte, and a closed length leaves no fault to come first. -/
theorem unloadedInputRefused : Obligations.UnloadedInputRefused :=
  ⟨xformUnloaded_xformOf .w8 .D, xformUnloaded_xformOf .w16 .D, xformUnloaded_xformOf .w8 .S,
    xformUnloaded_xformOf .w16 .S⟩

/-- Settles O33: the detection has no outcome, and DETECT and RUN refuse with the byte it names. -/
theorem unloadedHeaderRefused : Obligations.UnloadedHeaderRefused := by
  intro s d hcap hu i hi
  obtain ⟨a, hdet⟩ := exists_detect_error hu
  obtain ⟨hlt, hn⟩ := detect_error hdet
  refine ⟨a, hlt, hn, ?_⟩
  obtain rfl | rfl := List.mem_pair.1 hi
  · rw [exec_detectOf, detectCommand_of_detect_error hcap hdet]
  · rw [exec_runOf, runCommand_of_detect_error hcap hdet]

/-- Settles O34. -/
theorem lengthAboveCapacityRefused : Obligations.LengthAboveCapacityRefused := by
  have hdetect : ∀ d, refusedAboveCapacity (detectOf d) := fun d s h =>
    (exec_detectOf d s).trans (detectCommand_of_cap_lt h)
  have hxform : ∀ w d, refusedAboveCapacity (xformOf w d) := fun w d s h =>
    (exec_xformOf w d s).trans (xform_of_cap_lt h)
  have hrun : ∀ d, refusedAboveCapacity (runOf d) := fun d s h => (exec_runOf d s).trans (runCommand_of_cap_lt h)
  simp only [Obligations.LengthAboveCapacityRefused, List.forall_mem_cons]
  exact ⟨hdetect .D, hdetect .S, hxform .w8 .D, hxform .w16 .D, hxform .w8 .S, hxform .w16 .S, hrun .D, hrun .S,
    fun _ hnil => absurd hnil List.not_mem_nil⟩

/-- Settles O42. -/
theorem hostWritesWhileBusyRefused : Obligations.HostWritesWhileBusyRefused := by
  intro s rest hb
  refine ⟨fun i v hi hh => ?_, fun a b ha hh => ?_⟩
  · have hwritable : isWritableReg i = true := by rcases hi with rfl | rfl | rfl <;> rfl
    rw [step_of_host hh (by simp)]
    exact hostAct_writeReg_of_busy_refused (s := { s with host := rest }) hb hwritable v
  · rw [step_of_host hh (by simp)]
    exact hostAct_writeIB_of_busy (s := { s with host := rest }) hb ha b

/-- Settles O51: reset comes next in every engine state, also while BUSY. -/
theorem resetInput : Obligations.ResetInput := fun _ _ hh => step_of_host hh (by simp)

end Sys2Proof.Proofs
end
